-- ==== Sys2Proof/Word.lean ====
section
/-! DEFINITION. The word and byte types (R4, R17 of `00_scope.md`) and the four key words (R5). -/

namespace Sys2Proof

/-- A word is a 32-bit unsigned integer (R4, R17). -/
abbrev Word := BitVec 32

/-- A byte is 8 bits (R17). -/
abbrev Byte := BitVec 8

/-- The four 32-bit key words `K[0]`, `K[1]`, `K[2]`, `K[3]` (R5, R21). They are words, not bytes: the byte
order never applies to them. -/
structure Key where
  k0 : Word
  k1 : Word
  k2 : Word
  k3 : Word
deriving DecidableEq, Repr, Inhabited

end Sys2Proof
end

