-- ==== Sys2Proof/Syntax.lean ====
section
/-! DEFINITION. The commands of the block, one constructor per row of `spec/opcode_table.json` (R61 of
`30_encoding.md`). A command carries no operand: what it works on is held in `BUF_ADDR` and `BUF_LEN` (R63). -/

namespace Sys2Proof

/-- The four commands (R61). -/
inductive Instr where
  /-- `ENCC`: encrypt the chunk at `BUF_ADDR` (R90). -/
  | encc
  /-- `DECC`: decrypt the chunk at `BUF_ADDR` (R91). -/
  | decc
  /-- `ENCB`: encrypt the buffer of `BUF_LEN` bytes at `BUF_ADDR` (R104). -/
  | encb
  /-- `DECB`: decrypt the buffer of `BUF_LEN` bytes at `BUF_ADDR` (R106). -/
  | decb
deriving DecidableEq, Repr, Inhabited

end Sys2Proof
end

