-- ==== Sys2Proof/Config.lean ====
section
/-! DEFINITION. What is constant for the life of a model instance (R36 of `10_state.md`), and the free values.
The constants the spec fixes are plain definitions, the parameters it keeps open to a second reading are the
fields of `Config` (this hardware's values are `Machine.hw`), and what it leaves without a value is `opaque`. -/

namespace Sys2Proof

/-- `BYTE_ORDER` (R12, R42). -/
inductive ByteOrder where
  | le
  | be
deriving DecidableEq, Repr, Inhabited

/-- The registers a round works on: `V0`, `V1`, `SUM` (R22, R23). -/
structure RoundRegs where
  v0 : Word
  v1 : Word
  sum : Word
deriving DecidableEq, Repr, Inhabited

/-- `ROUND_FN` (R13): the two round bodies, as one replaceable configuration field (R82). -/
structure RoundFn where
  /-- One iteration of the loop of R83. -/
  enc : Key → RoundRegs → RoundRegs
  /-- One iteration of the loop of R84. -/
  dec : Key → RoundRegs → RoundRegs

/-- The parameters a model is to carry so that their other values can be examined: `CHUNK_BYTES` (R11),
`BYTE_ORDER` (R12), `ROUND_FN` (R13), `TAIL_PASS_WHEN_ALIGNED` (R14). -/
structure Config where
  chunkBytes : Nat
  byteOrder : ByteOrder
  roundFn : RoundFn
  tailPassWhenAligned : Bool

namespace Config

/-- `ROUNDS = 32` (R7). -/
def ROUNDS : Nat := 32

/-- `DELTA = 0x9E3779B9` (R8). -/
def DELTA : Word := 0x9E3779B9#32

/-- `DEC_SUM_INIT = 0xC6EF3720` (R9). -/
def DEC_SUM_INIT : Word := 0xC6EF3720#32

/-- `BLOCK_BYTES = 8`: two words (R10). -/
def BLOCK_BYTES : Nat := 8

/-- `2^ADDR_BITS` with `ADDR_BITS = 32`: one past the highest byte address (R15). -/
def ADDR_SPACE : Nat := 4294967296

/-- `SUBBLOCKS = CHUNK_BYTES / BLOCK_BYTES` (R11). -/
def subblocks (cfg : Config) : Nat := cfg.chunkBytes / BLOCK_BYTES

/-- `KEY` (R6) is OPEN: the source never prints it. A free value, log entry 2. -/
opaque KEY : Key

/-- `BASE` (R16) is OPEN: where the register block lies is the platform's. A free value, log entry 11. -/
opaque BASE : Word

end Config

/-- What a reset leaves in the registers R37 calls unspecified (log entry 4). -/
structure Unspecified where
  v0 : Word
  v1 : Word
  sum : Word
  rnd : Nat
  op : Instr
  idx : Nat
  latA : Word
  latL : Word
deriving DecidableEq, Repr, Inhabited

/-- The unspecified registers after reset number `n` (R37, U3: any value). Free values, log entry 4. -/
opaque Config.unspecified : Nat → Unspecified

/-- The byte at an address of the buffer after reset number `n` interrupted a command (R161, U9: any value).
Free values, log entry 9. -/
opaque Config.lostByte : Nat → Nat → Byte

end Sys2Proof
end

