-- ==== Sys2Proof/Machine/Script.lean ====
section
/-! DEFINITION. The host's side of the interface as data: the actions of a host script (R66, R67 of
`30_encoding.md`) with the register map they use (R28, R64), what a read returns, and the platform's regions. -/

namespace Sys2Proof.Machine

/-- How wide a register access is. Only a whole 32-bit access is defined (R58). -/
inductive AccessWidth where
  | byte
  | half
  | word
deriving DecidableEq, Repr

/-- The four interface registers (R28). -/
inductive Reg where
  | cmd
  | status
  | bufAddr
  | bufLen
deriving DecidableEq, Repr

/-- The byte offset of a register from `BASE` (R28, R64). -/
def Reg.offset : Reg → Nat
  | .cmd => 0x00
  | .status => 0x04
  | .bufAddr => 0x08
  | .bufLen => 0x0C

/-- The register's byte address, `BASE` plus its offset (R64). -/
def Reg.address (r : Reg) : Word := Config.BASE + BitVec.ofNat 32 r.offset

/-- One action of the host (R66), and the reset of the block (R160). A register access names its offset in the
block's page (R28; log entry 11). -/
inductive HostAction where
  /-- The host writes a value at a register offset. -/
  | regWrite (offset : Nat) (width : AccessWidth) (value : Word)
  /-- The host reads at a register offset. -/
  | regRead (offset : Nat) (width : AccessWidth)
  /-- `POKE`: the host stores bytes in the data space. -/
  | poke (addr : Word) (bytes : List Byte)
  /-- `PEEK`: the host loads bytes from the data space. -/
  | peek (addr : Word) (count : Nat)
  /-- `WAIT`: the host reads `STATUS` until bit 1 reads 1 (R67). -/
  | wait
  /-- The block is reset (R160). -/
  | reset
deriving DecidableEq, Repr

/-- What a host read returned. -/
inductive Response where
  | reg (offset : Nat) (value : Word)
  | bytes (addr : Word) (data : List Byte)
deriving DecidableEq, Repr

/-- A range of the data space, `size` bytes from `base`. -/
structure Region where
  base : Nat
  size : Nat
deriving DecidableEq, Repr

namespace HostAction

/-- `WR <reg>, <value>` (R66). -/
def wr (r : Reg) (v : Word) : HostAction := .regWrite r.offset .word v

/-- `RD <reg>` (R66). -/
def rd (r : Reg) : HostAction := .regRead r.offset .word

/-- The pseudo-instruction `ENCC <A>` (R67). -/
def pseudoEncc (a : Word) : List HostAction := [wr .bufAddr a, wr .cmd 0x00000000#32]

/-- The pseudo-instruction `DECC <A>` (R67). -/
def pseudoDecc (a : Word) : List HostAction := [wr .bufAddr a, wr .cmd 0x00000001#32]

/-- The pseudo-instruction `ENCB <A>, <L>` (R67). -/
def pseudoEncb (a l : Word) : List HostAction := [wr .bufAddr a, wr .bufLen l, wr .cmd 0x00000002#32]

/-- The pseudo-instruction `DECB <A>, <L>` (R67). -/
def pseudoDecb (a l : Word) : List HostAction := [wr .bufAddr a, wr .bufLen l, wr .cmd 0x00000003#32]

end HostAction

end Sys2Proof.Machine
end

