-- ==== Sys2Proof/WellFormed.lean ====
section
/-! DEFINITION. What makes a command word, a host action and a configuration well formed. -/

namespace Sys2Proof

/-- The fields of a command word (R60): `DIR` in bit 0, `SCOPE` in bit 1, `RSV` in bits 31:2. -/
structure CommandFields where
  dir : BitVec 1
  scope : BitVec 1
  rsv : BitVec 30
deriving DecidableEq, Repr

/-- The reserved field must be zero (R29, R60). -/
def CommandFields.wf (f : CommandFields) : Bool := f.rsv == 0

/-- Every command is well formed: it has no operand field (R63). -/
def Instr.wf : Instr → Bool
  | .encc => true
  | .decc => true
  | .encb => true
  | .decb => true

/-- A configuration the rules are written for: `CHUNK_BYTES` is 8 or 16 (R11). -/
def Config.wf (cfg : Config) : Bool := cfg.chunkBytes == 8 || cfg.chunkBytes == 16

/-- A register access is one whole 32-bit access at a multiple of 4 (R58). -/
def Machine.accessWf (offset : Nat) (width : Machine.AccessWidth) : Bool :=
  width == .word && offset % 4 == 0

/-- A host action the spec defines in itself: a whole aligned register access (R58), or a data access that stays
inside the address space (R41). -/
def Machine.HostAction.wf : Machine.HostAction → Bool
  | .regWrite offset width _ => Machine.accessWf offset width
  | .regRead offset width => Machine.accessWf offset width
  | .poke addr bytes => decide (addr.toNat + bytes.length ≤ Config.ADDR_SPACE)
  | .peek addr count => decide (addr.toNat + count ≤ Config.ADDR_SPACE)
  | .wait => true
  | .reset => true

end Sys2Proof
end

