-- ==== Sys2Proof/Decode.lean ====
section
/-! DEFINITION. From a command word to a command and back (R60 to R62, R65 of `30_encoding.md`). -/

namespace Sys2Proof

/-- The fields of a word written to `CMD` (R60). -/
def CommandFields.ofWord (w : Word) : CommandFields :=
  { dir := w.extractLsb' 0 1, scope := w.extractLsb' 1 1, rsv := w.extractLsb' 2 30 }

/-- The word with these fields (R60). -/
def CommandFields.toWord (f : CommandFields) : Word :=
  BitVec.ofNat 32 (f.dir.toNat + 2 * f.scope.toNat + 4 * f.rsv.toNat)

/-- Why a word is no command: `raise IllegalCommand(cmd)` (R18, R62). -/
inductive DecodeError where
  /-- `CMD[31:2] ≠ 0` (R62). -/
  | illegalCommand (cmd : Word)
deriving DecidableEq, Repr

/-- `OPC = CMD[1:0]`, the pair (`SCOPE`, `DIR`) read as a 2-bit number (R60, R61). -/
def decodeOpc (opc : BitVec 2) : Instr :=
  if opc = 0b00#2 then .encc
  else if opc = 0b01#2 then .decc
  else if opc = 0b10#2 then .encb
  else .decb

/-- R61: if `CMD[31:2]` is not zero the command is illegal, otherwise `CMD[1:0]` selects it. -/
def decode (w : Word) : Except DecodeError Instr :=
  if (CommandFields.ofWord w).wf then .ok (decodeOpc (w.extractLsb' 0 2))
  else .error (.illegalCommand w)

/-- The `SCOPE` and `DIR` of each command, `RSV` zero (R61). -/
def Instr.fields : Instr → CommandFields
  | .encc => { dir := 0, scope := 0, rsv := 0 }
  | .decc => { dir := 1, scope := 0, rsv := 0 }
  | .encb => { dir := 0, scope := 1, rsv := 0 }
  | .decb => { dir := 1, scope := 1, rsv := 0 }

/-- The word of a command (R61). -/
def encode (i : Instr) : Word := i.fields.toWord

/-- What the decoder reads from an instruction of `nbits` bits whose bits are `w`: a command is one 32-bit word
(R65) and a register value has no byte order (R58). A wider word is no command. -/
def decodeTableWord (nbits w : Nat) : Option Instr :=
  if w % 2 ^ nbits < 2 ^ 32 then
    match decode (BitVec.ofNat 32 (w % 2 ^ nbits)) with
    | .ok i => some i
    | .error _ => none
  else none

end Sys2Proof
end

