-- ==== Sys2Proof/Machine/State.lean ====
section
/-! DEFINITION. The state of the machine (`10_state.md`), the reasons a step stops, and the state after reset. -/

namespace Sys2Proof.Machine

/-- `PHASE` (R26): which part of the command's chunk list is being done. -/
inductive Phase where
  | idle
  | tailFirst
  | aligned
  | tailLast
  | single
deriving DecidableEq, Repr

/-- The data space as a list of (address, byte): addresses strictly rising, no byte equal to what an unlisted
address reads as (`Memory.wf`). -/
abbrev Memory := List Host.Cell

/-- Why the machine stops with a fault. There is NO constructor: the cipher raises nothing (R140), there is no trap
mechanism (R146), and the only exception-like event, `IllegalCommand`, is recorded in `STATUS.ILL` and the block goes
on (R141; log entry 12). -/
inductive Fault where
deriving DecidableEq, Repr

/-- Why a step has no meaning. Every refusal is safe: a run stops where the hardware's behaviour is not given. -/
inductive Refusal where
  /-- Raised by an arm of `exec` whose command has no meaning yet: none is left. Safe. -/
  | notModelled (mnemonic : String)
  /-- Raised by a command whose range leaves the address space (R47, R143, U8: "a model refuses it"). Safe. -/
  | rangeViolation
  /-- Raised by a command whose range is not ordinary memory (R46, R143, U8: "a model should refuse it"). Safe. -/
  | notOrdinaryMemory
  /-- Raised by a host write to `CMD`, `BUF_ADDR` or `BUF_LEN` while `BUSY = 1` (R142, U4: "it refuses it"). Safe. -/
  | writeWhileBusy
  /-- Raised by `POKE` or `PEEK` on bytes that belong to the running command (R57, R165, U4: a race the model
  refuses to give a value). Safe. -/
  | busyRangeAccess
  /-- Raised by a register access that is narrower than 32 bits or misaligned (R58, U12: "a model refuses them"). Safe. -/
  | badRegisterAccess
  /-- Raised by `POKE` or `PEEK` beyond the top of the data space (R41: defined only inside it; log entry 13). Safe. -/
  | hostRangeViolation
  /-- Raised by `POKE` or `PEEK` on bytes that are not ordinary memory (R46; log entry 13). Safe. -/
  | hostNotOrdinaryMemory
  /-- Raised by a micro-step from a sequencer state that R109 has no row for, which no run reaches (log entry 17). Safe. -/
  | noSequencerRow
deriving DecidableEq, Repr

/-- The machine. The fields up to `mem` are the spec's (`10_state.md`); the last four are the model's own: the
platform's map, the host, and the number of resets so far. -/
structure State where
  /-- `K[0..3]`, hardwired to `KEY` (R21): no step writes it. -/
  k : Key
  /-- `V0` (R22). -/
  v0 : Word
  /-- `V1` (R22). -/
  v1 : Word
  /-- `SUM` (R23). -/
  sum : Word
  /-- `RND` (R24). -/
  rnd : Nat
  /-- `OP` (R26). -/
  op : Instr
  /-- `PHASE` (R26). -/
  phase : Phase
  /-- `IDX` (R26). -/
  idx : Nat
  /-- The latched `A` of R109 (log entry 10). -/
  latA : Word
  /-- The latched `L` of R109 (log entry 10). -/
  latL : Word
  /-- `STATUS` (R30). -/
  status : Word
  /-- `BUF_ADDR` (R31). -/
  bufAddr : Word
  /-- `BUF_LEN` (R32). -/
  bufLen : Word
  /-- The data space `M` (R34, R40). -/
  mem : Memory
  /-- Where the data space is not ordinary memory (R46, R48; log entry 6). -/
  nonRam : List Region
  /-- The host's actions still to come, the next one first (R66; log entry 7). -/
  script : List HostAction
  /-- What the host's reads returned, oldest first (log entry 7). -/
  responses : List Response
  /-- How many resets there have been: the index of the next reset's free values (log entry 14). -/
  resets : Nat
deriving DecidableEq, Repr

/-- The machine right after reset (R37, R160). The registers R37 calls unspecified hold free values (log entry 4). -/
def State.reset : State where
  k := Config.KEY
  v0 := (Config.unspecified 0).v0
  v1 := (Config.unspecified 0).v1
  sum := (Config.unspecified 0).sum
  rnd := (Config.unspecified 0).rnd
  op := (Config.unspecified 0).op
  phase := .idle
  idx := (Config.unspecified 0).idx
  latA := (Config.unspecified 0).latA
  latL := (Config.unspecified 0).latL
  status := 0x00000000#32
  bufAddr := 0x00000000#32
  bufLen := 0x00000000#32
  mem := []
  nonRam := []
  script := []
  responses := []
  resets := 1

end Sys2Proof.Machine
end

