-- ==== Sys2Proof/Machine/Flags.lean ====
section
/-! DEFINITION. The bits of `STATUS` (R30 of `10_state.md`). The datapath has no flags (R27). -/

namespace Sys2Proof.Machine

/-- A word with bit `i` set to `b` and every other bit kept. -/
def putBit (w : Word) (i : Nat) (b : Bool) : Word :=
  (w &&& ~~~(1#32 <<< i)) ||| (if b then 1#32 <<< i else 0#32)

/-- `STATUS.BUSY` is bit 0 (R30). -/
def busyBit : Nat := 0

/-- `STATUS.DONE` is bit 1 (R30). -/
def doneBit : Nat := 1

/-- `STATUS.ILL` is bit 2 (R30). -/
def illBit : Nat := 2

namespace State

/-- `STATUS.BUSY`. -/
def busy (s : State) : Bool := s.status.getLsbD busyBit

/-- `STATUS.DONE`. -/
def done (s : State) : Bool := s.status.getLsbD doneBit

/-- `STATUS.ILL`. -/
def ill (s : State) : Bool := s.status.getLsbD illBit

end State

/-- `STATUS.DONE <- 0 ; STATUS.BUSY <- 1`: a legal command starts (R90, R91, R104, R106). -/
def statusStarted (w : Word) : Word := putBit (putBit w doneBit false) busyBit true

/-- `STATUS.BUSY <- 0 ; STATUS.DONE <- 1`: a command completes (R109). -/
def statusCompleted (w : Word) : Word := putBit (putBit w busyBit false) doneBit true

/-- `STATUS.ILL <- 1 ; STATUS.DONE <- 0`: an illegal command was written (R141). -/
def statusIllegal (w : Word) : Word := putBit (putBit w illBit true) doneBit false

end Sys2Proof.Machine
end

