-- ==== Sys2Proof/Machine/Operands.lean ====
section
/-! DEFINITION. The arithmetic primitives (R18 of `00_scope.md`), the byte order (R42 of `20_memory.md`), and what a
command derives from its operands (R63 of `30_encoding.md`, R102 of `41_buffer_driver_ops.md`). -/

namespace Sys2Proof.Machine

/-- `add32(a, b) = (a + b) mod 2^32` (R18, R86). -/
def add32 (a b : Word) : Word := a + b

/-- `sub32(a, b) = (a - b) mod 2^32` (R18, R86). -/
def sub32 (a b : Word) : Word := a - b

/-- `xor32` (R18). -/
def xor32 (a b : Word) : Word := a ^^^ b

/-- `shl32(a, n)`: logical left shift (R18, R86). -/
def shl32 (a : Word) (n : Nat) : Word := a <<< n

/-- `shr32(a, n)`: logical right shift (R18, R86). -/
def shr32 (a : Word) (n : Nat) : Word := a >>> n

/-- `WordOfBytes` (R42); `b0` is the byte at the lowest address. -/
def wordOfBytes : ByteOrder → Byte → Byte → Byte → Byte → Word
  | .le, b0, b1, b2, b3 =>
    BitVec.ofNat 32 (b0.toNat + 2 ^ 8 * b1.toNat + 2 ^ 16 * b2.toNat + 2 ^ 24 * b3.toNat)
  | .be, b0, b1, b2, b3 =>
    BitVec.ofNat 32 (2 ^ 24 * b0.toNat + 2 ^ 16 * b1.toNat + 2 ^ 8 * b2.toNat + b3.toNat)

/-- `BytesOfWord` (R42), the byte for the lowest address first. -/
def bytesOfWord : ByteOrder → Word → List Byte
  | .le, w => [w.extractLsb' 0 8, w.extractLsb' 8 8, w.extractLsb' 16 8, w.extractLsb' 24 8]
  | .be, w => [w.extractLsb' 24 8, w.extractLsb' 16 8, w.extractLsb' 8 8, w.extractLsb' 0 8]

/-- `DIR` of a command: forward (encrypt) or inverse (decrypt) (R60). -/
inductive Dir where
  | fwd
  | inv
deriving DecidableEq, Repr

/-- `DIR` (R60, R61). -/
def dirOf : Instr → Dir
  | .encc => .fwd
  | .decc => .inv
  | .encb => .fwd
  | .decb => .inv

/-- `SCOPE` (R60, R61): is the command over the buffer, not over one chunk. -/
def scopeIsBuffer : Instr → Bool
  | .encc => false
  | .decc => false
  | .encb => true
  | .decb => true

/-- `q = L div C`, the number of aligned full chunks (R102). -/
def alignedChunks (cfg : Config) (l : Nat) : Nat := l / cfg.chunkBytes

/-- `r = L mod C`, the tail length (R102). -/
def tailLength (cfg : Config) (l : Nat) : Nat := l % cfg.chunkBytes

/-- `TailPass = (r != 0) or TAIL_PASS_WHEN_ALIGNED` (R102). -/
def tailPass (cfg : Config) (l : Nat) : Bool := tailLength cfg l != 0 || cfg.tailPassWhenAligned

/-- How many bytes from `A` a command owns: a chunk, or the buffer, or none for a buffer below the no-op floor,
which makes no access at all (R34, R47, R101). -/
def rangeLength (cfg : Config) (i : Instr) (l : Nat) : Nat :=
  if scopeIsBuffer i then (if l < cfg.chunkBytes then 0 else l) else cfg.chunkBytes

/-- Do `n` bytes at `a` and `m` bytes at `b` share a byte. -/
def overlaps (a n b m : Nat) : Bool :=
  decide (0 < n) && decide (0 < m) && decide (a < b + m) && decide (b < a + n)

/-- Is every byte of the range ordinary memory (R46): it shares none with a region that is not. -/
def ordinary (regions : List Region) (a n : Nat) : Bool :=
  regions.all fun r => !overlaps a n r.base r.size

end Sys2Proof.Machine
end

