-- ==== Sys2Proof/Machine/Ops.lean ====
section
/-! DEFINITION. The named operations over memory and registers: `MemRead`, `MemWrite`, `LoadWord`, `StoreWord`
(`20_memory.md`), starting and completing a command (R109), the one exception-like event (R141), and reset (R160). -/

namespace Sys2Proof.Machine

namespace Memory

/-- What an unlisted address reads as: zero. DESIGN CHOICE, unsafe: the spec gives memory no power-on contents
(log entry 5). -/
def background (_ : Nat) : Byte := 0#8

/-- The byte `M[a]` (R40). -/
def read : Memory → Nat → Byte
  | [], a => background a
  | (b, v) :: m, a => if b = a then v else read m a

/-- `M[a] <- v`, keeping the canonical form. -/
def write : Memory → Nat → Byte → Memory
  | [], a, v => if v = background a then [] else [(a, v)]
  | (b, w) :: m, a, v =>
    if a < b then (if v = background a then (b, w) :: m else (a, v) :: (b, w) :: m)
    else if a = b then (if v = background a then m else (a, v) :: m)
    else (b, w) :: write m a v

/-- Addresses rise strictly from `lo` on, and no listed byte is what an unlisted address reads as. -/
def wfFrom : Nat → Memory → Bool
  | _, [] => true
  | lo, (a, v) :: m => decide (lo ≤ a) && (v != background a) && wfFrom (a + 1) m

/-- The canonical form of a memory. -/
def wf (m : Memory) : Bool := wfFrom 0 m

/-- Every listed address lies in the data space (R34). -/
def inSpace (m : Memory) : Bool := m.all fun c => decide (c.1 < Config.ADDR_SPACE)

/-- `MemRead(a, n)` (R41). -/
def memRead (m : Memory) (a : Nat) : Nat → List Byte
  | 0 => []
  | n + 1 => read m a :: memRead m (a + 1) n

/-- `MemWrite(a, n, bs)` with `n` the length of `bs` (R41). -/
def memWrite (m : Memory) (a : Nat) : List Byte → Memory
  | [] => m
  | b :: bs => memWrite (write m a b) (a + 1) bs

/-- `LoadWord(a)` (R43). -/
def loadWord (cfg : Config) (m : Memory) (a : Nat) : Word :=
  wordOfBytes cfg.byteOrder (read m a) (read m (a + 1)) (read m (a + 2)) (read m (a + 3))

/-- `StoreWord(a, w)` (R43). -/
def storeWord (cfg : Config) (m : Memory) (a : Nat) (w : Word) : Memory :=
  memWrite m a (bytesOfWord cfg.byteOrder w)

/-- The bytes at `a` and the `n - 1` after it take the free values of reset number `r` (R161). -/
def loseBytes (r : Nat) (m : Memory) (a : Nat) : Nat → Memory
  | 0 => m
  | n + 1 => loseBytes r (write m a (Config.lostByte r a)) (a + 1) n

end Memory

namespace State

/-- `STATUS.DONE <- 0 ; STATUS.BUSY <- 1 ; OP <- i` (R90, R91, R104, R106). -/
def started (i : Instr) (s : State) : State := { s with status := statusStarted s.status, op := i }

/-- "complete" (R109): `PHASE <- IDLE ; STATUS.BUSY <- 0 ; STATUS.DONE <- 1`. -/
def completed (s : State) : State := { s with phase := .idle, status := statusCompleted s.status }

/-- "latch `A`" (R109). -/
def latchA (s : State) : State := { s with latA := s.bufAddr }

/-- "latch `A`, `L`" (R109). -/
def latchAL (s : State) : State := { s with latA := s.bufAddr, latL := s.bufLen }

/-- `PHASE <- p` (R26). -/
def atPhase (s : State) (p : Phase) : State := { s with phase := p }

/-- `IDX <- i` (R26). -/
def atIdx (s : State) (i : Nat) : State := { s with idx := i }

/-- `IllegalCommand` (R141), the one event: `ILL` is set, `DONE` cleared, nothing else changes. -/
def illegalCommand (s : State) : State := { s with status := statusIllegal s.status }

/-- How many bytes from `latA` the running command owns (R57): none when no command is running. -/
def busyLength (cfg : Config) (s : State) : Nat :=
  if s.busy then (if scopeIsBuffer s.op then s.latL.toNat else cfg.chunkBytes) else 0

/-- Reset (R37, R160): the registers take their reset values, the unspecified ones free values, `K` stays `KEY`,
and memory is not touched, but for the range of a command that was running, whose bytes are lost (R161). -/
def resetBlock (cfg : Config) (s : State) : State :=
  let u := Config.unspecified s.resets
  { s with
    v0 := u.v0, v1 := u.v1, sum := u.sum, rnd := u.rnd, op := u.op, phase := .idle, idx := u.idx,
    latA := u.latA, latL := u.latL, status := 0x00000000#32, bufAddr := 0x00000000#32, bufLen := 0x00000000#32,
    mem := Memory.loseBytes s.resets s.mem s.latA.toNat (s.busyLength cfg),
    resets := s.resets + 1 }

end State

/-- Every command begins here: it is refused while one is running (R142), when its range leaves the address space
(R47) and when its range is not ordinary memory (R46); otherwise it runs to its end (R20). -/
def launch (cfg : Config) (i : Instr) (run : State → State) (s : State) :
    Host.Outcome State Fault Refusal :=
  let n := rangeLength cfg i s.bufLen.toNat
  if s.busy then .refused .writeWhileBusy
  else if Config.ADDR_SPACE < s.bufAddr.toNat + n then .refused .rangeViolation
  else if ordinary s.nonRam s.bufAddr.toNat n then .next (run s)
  else .refused .notOrdinaryMemory

end Sys2Proof.Machine
end

