-- ==== Sys2Proof/Machine/Engine.lean ====
section
/-! DEFINITION. The Block Cipher Engine (`40_engine_chunk_ops.md`): the mixing function, the rounds, the block
transforms, and the chunk operations as the ordered list of what the engine does. -/

namespace Sys2Proof.Machine

/-- `Mix(x, s, ka, kb)` (R82). PRESUMED: the formula is the spec's from general knowledge (log entry 1). -/
def mix (x s ka kb : Word) : Word :=
  xor32 (xor32 (add32 (shl32 x 4) ka) (add32 x s)) (add32 (shr32 x 5) kb)

/-- The loop body of R83, for a mixing function `f`: the sum first, then `V0` from `V1`, then `V1` from the new `V0`. -/
def encRound (f : Word → Word → Word → Word → Word) (k : Key) (r : RoundRegs) : RoundRegs :=
  let sum := add32 r.sum Config.DELTA
  let v0 := add32 r.v0 (f r.v1 sum k.k0 k.k1)
  let v1 := add32 r.v1 (f v0 sum k.k2 k.k3)
  { v0 := v0, v1 := v1, sum := sum }

/-- The loop body of R84, for a mixing function `f`: `V1` first, then `V0` from the new `V1`, then the sum. -/
def decRound (f : Word → Word → Word → Word → Word) (k : Key) (r : RoundRegs) : RoundRegs :=
  let v1 := sub32 r.v1 (f r.v0 r.sum k.k2 k.k3)
  let v0 := sub32 r.v0 (f v1 r.sum k.k0 k.k1)
  { v0 := v0, v1 := v1, sum := sub32 r.sum Config.DELTA }

/-- The round functions built on a mixing function (R83, R84). -/
def roundFnOf (f : Word → Word → Word → Word → Word) : RoundFn := { enc := encRound f, dec := decRound f }

/-- `n` iterations of a round body. -/
def rounds (body : RoundRegs → RoundRegs) : Nat → RoundRegs → RoundRegs
  | 0, r => r
  | n + 1, r => rounds body n (body r)

/-- `EncBlock` (R83) on `V0`, `V1`: the values at exit. -/
def encBlock (cfg : Config) (k : Key) (v0 v1 : Word) : RoundRegs :=
  rounds (cfg.roundFn.enc k) Config.ROUNDS { v0 := v0, v1 := v1, sum := 0#32 }

/-- `DecBlock` (R84) on `V0`, `V1`: the values at exit. -/
def decBlock (cfg : Config) (k : Key) (v0 v1 : Word) : RoundRegs :=
  rounds (cfg.roundFn.dec k) Config.ROUNDS { v0 := v0, v1 := v1, sum := Config.DEC_SUM_INIT }

/-- The block transform of a direction. -/
def blockTransform (cfg : Config) : Dir → Key → Word → Word → RoundRegs
  | .fwd => encBlock cfg
  | .inv => decBlock cfg

/-- One action of the engine inside a chunk operation (R87, R88). -/
inductive EngineOp where
  /-- `V0 <- LoadWord(a)`. -/
  | loadV0 (a : Nat)
  /-- `V1 <- LoadWord(a)`. -/
  | loadV1 (a : Nat)
  /-- `EncBlock` or `DecBlock`. -/
  | transform (d : Dir)
  /-- `StoreWord(a, V0)`. -/
  | storeV0 (a : Nat)
  /-- `StoreWord(a, V1)`. -/
  | storeV1 (a : Nat)
deriving DecidableEq, Repr

/-- What one action does. A transform reads `V0`, `V1`, `K` and writes `V0`, `V1`, `SUM`, `RND` (R83, R84); `RND`
leaves the loop at `ROUNDS`. -/
def EngineOp.run (cfg : Config) (s : State) : EngineOp → State
  | .loadV0 a => { s with v0 := Memory.loadWord cfg s.mem a }
  | .loadV1 a => { s with v1 := Memory.loadWord cfg s.mem a }
  | .transform d =>
    let r := blockTransform cfg d s.k s.v0 s.v1
    { s with v0 := r.v0, v1 := r.v1, sum := r.sum, rnd := Config.ROUNDS }
  | .storeV0 a => { s with mem := Memory.storeWord cfg s.mem a s.v0 }
  | .storeV1 a => { s with mem := Memory.storeWord cfg s.mem a s.v1 }

/-- Engine actions happen one at a time, each complete before the next begins (R50). -/
def runOps (cfg : Config) (ops : List EngineOp) (s : State) : State := ops.foldl (EngineOp.run cfg) s

/-- The body of the sub-block loop of R87 and R88, for the block at `a`. -/
def blockOps (d : Dir) (a : Nat) : List EngineOp :=
  [.loadV0 a, .loadV1 (a + 4), .transform d, .storeV0 a, .storeV1 (a + 4)]

/-- The blocks of a chunk at `a` in ascending order: `n` sub-blocks of `BLOCK_BYTES` bytes. -/
def subblockOps (d : Dir) : Nat → Nat → List EngineOp
  | 0, _ => []
  | n + 1, a => blockOps d a ++ subblockOps d n (a + Config.BLOCK_BYTES)

/-- Everything the engine does in a chunk operation at `a`, in order (R87, R88). -/
def chunkOps (cfg : Config) (d : Dir) (a : Nat) : List EngineOp := subblockOps d cfg.subblocks a

/-- `ChunkEnc(a)` (R87) or `ChunkDec(a)` (R88), by direction. -/
def chunkOp (cfg : Config) (d : Dir) (a : Nat) (s : State) : State := runOps cfg (chunkOps cfg d a) s

/-- A memory event of the block: `LW a` or `SW a` (R87). -/
inductive Access where
  | load (a : Nat)
  | store (a : Nat)
deriving DecidableEq, Repr

/-- The memory event of an engine action, if it has one. -/
def EngineOp.access : EngineOp → Option Access
  | .loadV0 a => some (.load a)
  | .loadV1 a => some (.load a)
  | .transform _ => none
  | .storeV0 a => some (.store a)
  | .storeV1 a => some (.store a)

/-- The memory events of a list of engine actions, in order. -/
def accessesOf (ops : List EngineOp) : List Access := ops.filterMap EngineOp.access

/-- This hardware (R11 to R14): 16-byte chunks, little-endian words, TEA rounds, no window pass on an aligned
length (log entries 1 and 3). -/
def hw : Config :=
  { chunkBytes := 16, byteOrder := .le, roundFn := roundFnOf mix, tailPassWhenAligned := false }

end Sys2Proof.Machine
end

