-- ==== Sys2Proof/Machine/BufferOps.lean ====
section
/-! DEFINITION. The buffer commands `ENCB` (R104) and `DECB` (R106 of `41_buffer_driver_ops.md`). -/

namespace Sys2Proof.Machine

/-- One aligned chunk in phase `ALIGNED`: the chunk operation at `A + IDX*C`, then `IDX <- IDX + 1` (R109), where
`IDX` is `i`. -/
def alignedChunk (cfg : Config) (d : Dir) (a i : Nat) (s : State) : State :=
  (chunkOp cfg d (a + i * cfg.chunkBytes) ((s.atPhase .aligned).atIdx i)).atIdx (i + 1)

/-- The first `n` aligned chunks of the buffer at `a`, in ascending order (R104, R106). -/
def alignedPass (cfg : Config) (d : Dir) (a : Nat) : Nat → State → State
  | 0, s => s
  | n + 1, s => alignedChunk cfg d a n (alignedPass cfg d a n s)

/-- The address of the tail window, `A + L - C` (R102). -/
def windowAddr (cfg : Config) (a l : Nat) : Nat := a + l - cfg.chunkBytes

/-- The pseudocode of R104: nothing below the no-op floor (R101); else the aligned chunks, then the window. -/
def runEncb (cfg : Config) (s : State) : State :=
  let a := s.bufAddr.toNat
  let l := s.bufLen.toNat
  let s₀ := s.started .encb
  if l < cfg.chunkBytes then s₀.completed
  else
    let s₁ := alignedPass cfg .fwd a (alignedChunks cfg l) ((s₀.latchAL.atIdx 0).atPhase .aligned)
    if tailPass cfg l then
      (chunkOp cfg .fwd (windowAddr cfg a l) (s₁.atPhase .tailLast)).completed
    else s₁.completed

/-- The pseudocode of R106: nothing below the no-op floor (R101); else the window, then the aligned chunks. -/
def runDecb (cfg : Config) (s : State) : State :=
  let a := s.bufAddr.toNat
  let l := s.bufLen.toNat
  let s₀ := s.started .decb
  if l < cfg.chunkBytes then s₀.completed
  else
    let s₁ :=
      if tailPass cfg l then chunkOp cfg .inv (windowAddr cfg a l) (s₀.latchAL.atPhase .tailFirst)
      else s₀.latchAL
    (alignedPass cfg .inv a (alignedChunks cfg l) ((s₁.atIdx 0).atPhase .aligned)).completed

/-- `ENCB` (R104). -/
def execEncb (s : State) : Host.Outcome State Fault Refusal := launch hw .encb (runEncb hw) s

/-- `DECB` (R106). -/
def execDecb (s : State) : Host.Outcome State Fault Refusal := launch hw .decb (runDecb hw) s

/-- The addresses of a buffer command's chunk operations, in order (R104, R106), for the `l` bytes at `a`. -/
def chunkAddrs (cfg : Config) (d : Dir) (a l : Nat) : List Nat :=
  let aligned := (List.range (alignedChunks cfg l)).map fun i => a + i * cfg.chunkBytes
  let window := if tailPass cfg l then [windowAddr cfg a l] else []
  if l < cfg.chunkBytes then []
  else match d with
    | .fwd => aligned ++ window
    | .inv => window ++ aligned

/-- Everything the engine does in a command, in order. -/
def commandOps (cfg : Config) (i : Instr) (a l : Nat) : List EngineOp :=
  if scopeIsBuffer i then (chunkAddrs cfg (dirOf i) a l).flatMap (chunkOps cfg (dirOf i))
  else chunkOps cfg (dirOf i) a

end Sys2Proof.Machine
end

