-- ==== Sys2Proof/Machine/ChunkOps.lean ====
section
/-! DEFINITION. The chunk commands `ENCC` (R90) and `DECC` (R91 of `40_engine_chunk_ops.md`). -/

namespace Sys2Proof.Machine

/-- The pseudocode of R90 and R91, for a command `i`: start, latch `A`, the chunk operation in `SINGLE`, complete. -/
def runChunkCommand (cfg : Config) (i : Instr) (s : State) : State :=
  (chunkOp cfg (dirOf i) s.bufAddr.toNat ((s.started i).latchA.atPhase .single)).completed

/-- `ENCC` (R90): `BUF_LEN` is ignored. -/
def execEncc (s : State) : Host.Outcome State Fault Refusal :=
  launch hw .encc (runChunkCommand hw .encc) s

/-- `DECC` (R91): `BUF_LEN` is ignored. -/
def execDecc (s : State) : Host.Outcome State Fault Refusal :=
  launch hw .decc (runChunkCommand hw .decc) s

end Sys2Proof.Machine
end

