-- ==== Sys2Proof/Machine/Sequencer.lean ====
section
/-! DEFINITION. The micro-steps of a command: the rows of R109 (`41_buffer_driver_ops.md`) one by one. A command of
the synchronous machine runs whole (R20); R110 asks that the two agree. -/

namespace Sys2Proof.Machine

/-- The rows of R109 whose current phase is `IDLE`: a legal command starts. -/
def begin (cfg : Config) (i : Instr) (s : State) : State :=
  let s₀ := s.started i
  let l := s.bufLen.toNat
  match i with
  | .encc => s₀.latchA.atPhase .single
  | .decc => s₀.latchA.atPhase .single
  | .encb =>
    if l < cfg.chunkBytes then s₀.completed else (s₀.latchAL.atIdx 0).atPhase .aligned
  | .decb =>
    if l < cfg.chunkBytes then s₀.completed
    else if tailPass cfg l then s₀.latchAL.atPhase .tailFirst
    else (s₀.latchAL.atIdx 0).atPhase .aligned

/-- The row of R109 for `ALIGNED`: the chunk operation at `A + IDX*C`, then the next chunk, the window or the end. -/
def alignedStep (cfg : Config) (s : State) : Host.Outcome State Fault Refusal :=
  let l := s.latL.toNat
  let q := alignedChunks cfg l
  let t := alignedChunk cfg (dirOf s.op) s.latA.toNat s.idx s
  if s.idx + 1 < q then .next t
  else if s.idx + 1 = q then
    (if s.op = .encb ∧ tailPass cfg l = true then .next (t.atPhase .tailLast) else .next t.completed)
  else .refused .noSequencerRow

/-- One micro-step of a running command (R109); an idle block waits (R160). -/
def microStep (cfg : Config) (s : State) : Host.Outcome State Fault Refusal :=
  match s.phase with
  | .idle => .next s
  | .single => .next (chunkOp cfg (dirOf s.op) s.latA.toNat s).completed
  | .tailFirst =>
    .next (((chunkOp cfg .inv (windowAddr cfg s.latA.toNat s.latL.toNat) s).atIdx 0).atPhase .aligned)
  | .aligned => alignedStep cfg s
  | .tailLast => .next (chunkOp cfg .fwd (windowAddr cfg s.latA.toNat s.latL.toNat) s).completed

/-- `n` micro-steps. -/
def microSteps (cfg : Config) : Nat → State → Host.Outcome State Fault Refusal
  | 0, s => .next s
  | n + 1, s =>
    match microStep cfg s with
    | .next t => microSteps cfg n t
    | .fault f => .fault f
    | .refused r => .refused r

/-- How many chunk operations, so how many micro-steps after the start, a command takes (R109, R171). -/
def chunkCount (cfg : Config) (i : Instr) (l : Nat) : Nat :=
  if scopeIsBuffer i then
    (if l < cfg.chunkBytes then 0 else alignedChunks cfg l + (if tailPass cfg l then 1 else 0))
  else 1

/-- The whole command in one step, by command. -/
def runCommand (cfg : Config) : Instr → State → State
  | .encc => runChunkCommand cfg .encc
  | .decc => runChunkCommand cfg .decc
  | .encb => runEncb cfg
  | .decb => runDecb cfg

end Sys2Proof.Machine
end

