-- ==== Sys2Proof/Machine/HostPort.lean ====
section
/-! DEFINITION. What each host action does: register accesses (R28 to R32 of `10_state.md`, R58 of `20_memory.md`),
data accesses (R66 of `30_encoding.md`), `WAIT` (R67) and reset (R160). -/

namespace Sys2Proof.Machine

/-- A host read returns a value. -/
def State.respond (s : State) (r : Response) : State := { s with responses := s.responses ++ [r] }

/-- What a register read returns (R28 to R32): `CMD` and reserved offsets read 0. Reads while busy are harmless and
return the current values (R142). -/
def readRegister (s : State) (offset : Nat) : Word :=
  if offset = Reg.status.offset then s.status
  else if offset = Reg.bufAddr.offset then s.bufAddr
  else if offset = Reg.bufLen.offset then s.bufLen
  else 0x00000000#32

/-- A word is written to `CMD` (R29): refused while busy (R142); the legality check comes first (R145), an illegal word
is `IllegalCommand` (R141), a legal one runs. -/
def writeCmd (w : Word) (s : State) : Host.Outcome State Fault Refusal :=
  if s.busy then .refused .writeWhileBusy
  else match decode w with
    | .ok i => exec i s
    | .error _ => .next s.illegalCommand

/-- A whole word is written at a register offset (R28 to R32): writes to `STATUS` and to reserved offsets are ignored,
writes to the operand registers while busy are refused (R142). -/
def writeRegister (offset : Nat) (w : Word) (s : State) : Host.Outcome State Fault Refusal :=
  if offset = Reg.cmd.offset then writeCmd w s
  else if offset = Reg.bufAddr.offset then
    (if s.busy then .refused .writeWhileBusy else .next { s with bufAddr := w })
  else if offset = Reg.bufLen.offset then
    (if s.busy then .refused .writeWhileBusy else .next { s with bufLen := w })
  else .next s

/-- Why a host access to `n` bytes at `a` is refused, if it is: it leaves the data space (R41), it touches bytes that
are not ordinary memory (R46), or bytes that belong to the running command (R57, R165). -/
def hostRefusal (cfg : Config) (s : State) (a n : Nat) : Option Refusal :=
  if Config.ADDR_SPACE < a + n then some .hostRangeViolation
  else if !ordinary s.nonRam a n then some .hostNotOrdinaryMemory
  else if overlaps a n s.latA.toNat (s.busyLength cfg) then some .busyRangeAccess
  else none

/-- The host stores bytes (`POKE`, R66). -/
def hostPoke (cfg : Config) (addr : Word) (bs : List Byte) (s : State) : Host.Outcome State Fault Refusal :=
  match hostRefusal cfg s addr.toNat bs.length with
  | some r => .refused r
  | none => .next { s with mem := Memory.memWrite s.mem addr.toNat bs }

/-- The host loads bytes (`PEEK`, R66). -/
def hostPeek (cfg : Config) (addr : Word) (n : Nat) (s : State) : Host.Outcome State Fault Refusal :=
  match hostRefusal cfg s addr.toNat n with
  | some r => .refused r
  | none => .next (s.respond (.bytes addr (Memory.memRead s.mem addr.toNat n)))

/-- One poll of `WAIT` (R67): read `STATUS`; when `DONE` reads 0 the wait goes on, and meanwhile a running command
moves (log entry 15). -/
def hostWait (cfg : Config) (s : State) : Host.Outcome State Fault Refusal :=
  let t := s.respond (.reg Reg.status.offset (readRegister s Reg.status.offset))
  if s.done then .next t else microStep cfg { t with script := .wait :: t.script }

/-- One host action. -/
def hostAct (cfg : Config) (a : HostAction) (s : State) : Host.Outcome State Fault Refusal :=
  match a with
  | .regWrite offset width value =>
    if accessWf offset width then writeRegister offset value s else .refused .badRegisterAccess
  | .regRead offset width =>
    if accessWf offset width then .next (s.respond (.reg offset (readRegister s offset)))
    else .refused .badRegisterAccess
  | .poke addr bs => hostPoke cfg addr bs s
  | .peek addr n => hostPeek cfg addr n s
  | .wait => hostWait cfg s
  | .reset => .next (s.resetBlock cfg)

/-- The host's next action, if it has one; otherwise the block moves on its own (R109), an idle one waits (R160). -/
def advance (cfg : Config) (s : State) : Host.Outcome State Fault Refusal :=
  match s.script with
  | [] => microStep cfg s
  | a :: rest => hostAct cfg a { s with script := rest }

/-- The action that makes the next step run the command word with these bits: the host's write to `CMD`. -/
def fetchAction (nbits w : Nat) : HostAction := .wr .cmd (BitVec.ofNat 32 (w % 2 ^ nbits))

end Sys2Proof.Machine
end

