-- ==== Sys2Proof/Machine/Step.lean ====
section
/-! DEFINITION. The step of the machine. The block fetches nothing: what comes next is the host's next action
(R26 of `10_state.md`, R55 of `20_memory.md`). -/

namespace Sys2Proof.Machine

/-- One step: the host's next action, or the block's own next micro-step when the host has none. -/
def step (s : State) : Host.Outcome State Fault Refusal := advance hw s

/-- `s` with the host about to write the command word `w` to `CMD` (log entry 7). -/
def State.withFetchWord (s : State) (nbits w : Nat) : State :=
  { s with script := fetchAction nbits w :: s.script }

end Sys2Proof.Machine
end

