-- ==== Sys2Proof/Machine/ClosedForm.lean ====
section
/-! DEFINITION. The cipher as a function of byte strings: what a chunk operation computes, and the closed forms R105
and R107 of `41_buffer_driver_ops.md`. -/

namespace Sys2Proof.Machine

/-- The word made of bytes `i` to `i + 3` of a string. -/
def wordAt (bo : ByteOrder) (bs : List Byte) (i : Nat) : Word :=
  wordOfBytes bo (bs.getD i 0) (bs.getD (i + 1) 0) (bs.getD (i + 2) 0) (bs.getD (i + 3) 0)

/-- A block transform on an 8-byte string: two words in, two words out (R83, R84, R87). -/
def blockString (cfg : Config) (d : Dir) (k : Key) (bs : List Byte) : List Byte :=
  let r := blockTransform cfg d k (wordAt cfg.byteOrder bs 0) (wordAt cfg.byteOrder bs 4)
  bytesOfWord cfg.byteOrder r.v0 ++ bytesOfWord cfg.byteOrder r.v1

/-- `f` on each of the first `n` pieces of `c` bytes of a string, the results in order. -/
def mapPieces (c : Nat) (f : List Byte → List Byte) : Nat → List Byte → List Byte
  | 0, _ => []
  | n + 1, bs => f (bs.take c) ++ mapPieces c f n (bs.drop c)

/-- The function `E` (forward) or `D` (inverse) on a string of `CHUNK_BYTES` bytes that a chunk operation computes
(R105, R107). -/
def chunkString (cfg : Config) (d : Dir) (k : Key) (bs : List Byte) : List Byte :=
  mapPieces Config.BLOCK_BYTES (blockString cfg d k) cfg.subblocks bs

/-- The closed form of `ENCB` (R105), `P` the plaintext; below the no-op floor the string itself (R101). -/
def encString (cfg : Config) (k : Key) (P : List Byte) : List Byte :=
  let c := cfg.chunkBytes
  let q := P.length / c
  let r := P.length % c
  let E := chunkString cfg .fwd k
  if P.length < c then P
  else if tailPass cfg P.length then
    let Y := E ((P.drop ((q - 1) * c)).take c)
    mapPieces c E (q - 1) P ++ Y.take r ++ E (Y.drop r ++ P.drop (q * c))
  else mapPieces c E q P

/-- The closed form of `DECB` (R107), `Q` the ciphertext; below the no-op floor the string itself (R101). -/
def decString (cfg : Config) (k : Key) (Q : List Byte) : List Byte :=
  let c := cfg.chunkBytes
  let q := Q.length / c
  let r := Q.length % c
  let D := chunkString cfg .inv k
  if Q.length < c then Q
  else if tailPass cfg Q.length then
    let W := D (Q.drop (Q.length - c))
    let Z := (Q.drop ((q - 1) * c)).take r ++ W.take (c - r)
    mapPieces c D (q - 1) Q ++ D Z ++ W.drop (c - r)
  else mapPieces c D q Q

end Sys2Proof.Machine
end

