-- ==== Sys2Proof/Safety.lean ====
section
/-! DEFINITION. The invariant of the machine, the host's duties around a command (R162 and R165 of
`70_reset_and_hazards.md`, R132 of `50_host_context.md`), and what counts as a safe run. -/

namespace Sys2Proof.Machine

/-- The range a running buffer command owns is the host's buffer, long enough for a chunk, inside the address space
(R47) and ordinary memory (R46); the operand registers still hold what was latched (R31, R32, R55). -/
structure BufferLatched (cfg : Config) (s : State) : Prop where
  addr : s.latA = s.bufAddr
  len : s.latL = s.bufLen
  floor : cfg.chunkBytes ≤ s.latL.toNat
  inSpace : s.latA.toNat + s.latL.toNat ≤ Config.ADDR_SPACE
  ordinaryRange : ordinary s.nonRam s.latA.toNat s.latL.toNat = true

/-- The same for a running chunk command. -/
structure ChunkLatched (cfg : Config) (s : State) : Prop where
  addr : s.latA = s.bufAddr
  inSpace : s.latA.toNat + cfg.chunkBytes ≤ Config.ADDR_SPACE
  ordinaryRange : ordinary s.nonRam s.latA.toNat cfg.chunkBytes = true

/-- The sequencer states of R109: which `OP`, `IDX` and latches go with each `PHASE`. -/
def SequencerOk (cfg : Config) (s : State) : Prop :=
  match s.phase with
  | .idle => True
  | .single => scopeIsBuffer s.op = false ∧ ChunkLatched cfg s
  | .tailFirst => s.op = .decb ∧ tailPass cfg s.latL.toNat = true ∧ BufferLatched cfg s
  | .aligned => scopeIsBuffer s.op = true ∧ s.idx < alignedChunks cfg s.latL.toNat ∧ BufferLatched cfg s
  | .tailLast =>
    s.op = .encb ∧ tailPass cfg s.latL.toNat = true ∧ s.idx = alignedChunks cfg s.latL.toNat ∧ BufferLatched cfg s

/-- What holds of every state of the machine. -/
structure StateInv (s : State) : Prop where
  /-- Memory keeps its canonical form. -/
  memWf : Memory.wf s.mem = true
  /-- Every listed byte lies in the data space (R34). -/
  memInSpace : Memory.inSpace s.mem = true
  /-- `K[i] = KEY[i]` at all times (R21). -/
  key : s.k = Config.KEY
  /-- `STATUS[31:3]` reads as 0 (R30). -/
  statusReserved : s.status.toNat < 8
  /-- "`BUSY` and `DONE` are never both 1" (R30). -/
  notBusyAndDone : ¬ (s.busy = true ∧ s.done = true)
  /-- A command is running exactly when the sequencer is not idle (R26). -/
  busyIffPhase : s.busy = true ↔ s.phase ≠ .idle
  /-- The sequencer is at a row of R109. -/
  sequencer : SequencerOk hw s

/-- The range precondition of a command (R46, R47). -/
def RangeOk (cfg : Config) (i : Instr) (s : State) : Prop :=
  s.bufAddr.toNat + rangeLength cfg i s.bufLen.toNat ≤ Config.ADDR_SPACE ∧
    ordinary s.nonRam s.bufAddr.toNat (rangeLength cfg i s.bufLen.toNat) = true

/-- What the host must ensure of its own access to `n` bytes at `a`: inside the data space, ordinary memory, and not
the running command's (R41, R46, R165). -/
def DataAccessOk (cfg : Config) (s : State) (a n : Nat) : Prop :=
  a + n ≤ Config.ADDR_SPACE ∧ ordinary s.nonRam a n = true ∧ overlaps a n s.latA.toNat (s.busyLength cfg) = false

/-- The registers the host may not write while a command runs (R165). -/
def guardedOffset (offset : Nat) : Prop :=
  offset = Reg.cmd.offset ∨ offset = Reg.bufAddr.offset ∨ offset = Reg.bufLen.offset

/-- The host's duties for its next action (R58, R132, R162, R165). -/
def HostDuty (cfg : Config) (s : State) : HostAction → Prop
  | .regWrite offset width value =>
    accessWf offset width = true ∧ (guardedOffset offset → s.busy = false) ∧
      (offset = Reg.cmd.offset → ∀ i, decode value = .ok i → RangeOk cfg i s)
  | .regRead offset width => accessWf offset width = true
  | .poke addr bs => DataAccessOk cfg s addr.toNat bs.length
  | .peek addr n => DataAccessOk cfg s addr.toNat n
  | .wait => True
  | .reset => True

/-- A run of `n` steps is safe when none of them is refused. -/
def SafeRun (n : Nat) (s : State) : Prop :=
  match n with
  | 0 => True
  | n + 1 => ∃ t, step s = .next t ∧ SafeRun n t

/-- No illegal command is on record (R141: the premise of claims about a host script). -/
def NoIllegalCommand (s : State) : Prop := s.ill = false

end Sys2Proof.Machine
end

