-- ==== Sys2Proof/Certificates/Slice0/Obligations.lean ====
section
/-! DEFINITION. What is claimed of the machine, for the provers. Each docstring names the rules it comes from. -/

open Sys2Proof Sys2Proof.Machine

namespace Sys2Proof.Machine

/-- What no command ever writes (R21, R31, R32, R66): the key, the operand registers, the platform's map, the host's
script and what its reads returned, the reset count, and every bit of `STATUS` from `ILL` up (R30). -/
structure CommandFrame (s t : State) : Prop where
  key : t.k = s.k
  bufAddr : t.bufAddr = s.bufAddr
  bufLen : t.bufLen = s.bufLen
  nonRam : t.nonRam = s.nonRam
  script : t.script = s.script
  responses : t.responses = s.responses
  resets : t.resets = s.resets
  statusBits : ∀ j, illBit ≤ j → t.status.getLsbD j = s.status.getLsbD j

/-- A completed command (R109): `OP` names it, the sequencer is idle, `BUSY` is 0 and `DONE` is 1. -/
structure Completed (i : Instr) (t : State) : Prop where
  op : t.op = i
  phase : t.phase = .idle
  busy : t.busy = false
  done : t.done = true

/-- Memory after a command that replaces the bytes from `a` on by the string `bs` and leaves every other byte. -/
def Replaces (m m' : Memory) (a : Nat) (bs : List Byte) : Prop :=
  Memory.wf m' = true ∧
    ∀ b, Memory.read m' b = if a ≤ b ∧ b < a + bs.length then bs.getD (b - a) 0 else Memory.read m b

/-- The round sum a direction ends with (R83, R84). -/
def finalSum : Dir → Word
  | .fwd => 0xC6EF3720#32
  | .inv => 0x00000000#32

/-- What a chunk command does from `s` to `t` (R90, R91): the 16 bytes at `BUF_ADDR` become what the chunk operation
computes from them; the working registers hold the last sub-block's words, the final sum and 32 (R93); `A` is latched. -/
structure ChunkCommandEffect (i : Instr) (s t : State) : Prop where
  completed : Completed i t
  frame : CommandFrame s t
  mem : Replaces s.mem t.mem s.bufAddr.toNat
    (chunkString hw (dirOf i) s.k (Memory.memRead s.mem s.bufAddr.toNat 16))
  v0 : t.v0 = wordAt .le (chunkString hw (dirOf i) s.k (Memory.memRead s.mem s.bufAddr.toNat 16)) 8
  v1 : t.v1 = wordAt .le (chunkString hw (dirOf i) s.k (Memory.memRead s.mem s.bufAddr.toNat 16)) 12
  sum : t.sum = finalSum (dirOf i)
  rnd : t.rnd = 32
  idx : t.idx = s.idx
  latA : t.latA = s.bufAddr
  latL : t.latL = s.latL

/-- The offset in a buffer of `l` bytes of the last block a buffer command stores: the end of the buffer for `ENCB`
(R104: the window last), the end of the aligned chunks for `DECB` (R106: the window first). -/
def lastBlock (i : Instr) (l : Nat) : Nat :=
  match dirOf i with
  | .fwd => l - 8
  | .inv => l / 16 * 16 - 8

/-- What a buffer command of at least a chunk does from `s` to `t` (R104 to R107): the `L` bytes at `BUF_ADDR` become the
closed form of what they were, every other byte stays; the working registers hold the words of the block stored last,
the final sum and 32 (R93); `IDX` ends at `q`, `A` and `L` are latched (R109). -/
structure BufferCommandEffect (i : Instr) (result : Key → List Byte → List Byte) (s t : State) : Prop where
  completed : Completed i t
  frame : CommandFrame s t
  mem : Replaces s.mem t.mem s.bufAddr.toNat
    (result s.k (Memory.memRead s.mem s.bufAddr.toNat s.bufLen.toNat))
  v0 : t.v0 = Memory.loadWord hw t.mem (s.bufAddr.toNat + lastBlock i s.bufLen.toNat)
  v1 : t.v1 = Memory.loadWord hw t.mem (s.bufAddr.toNat + lastBlock i s.bufLen.toNat + 4)
  sum : t.sum = finalSum (dirOf i)
  rnd : t.rnd = 32
  idx : t.idx = s.bufLen.toNat / 16
  latA : t.latA = s.bufAddr
  latL : t.latL = s.bufLen

/-- Is the byte at `b` one of the four a memory event moves (R43). -/
def Access.moves (b : Nat) : Access → Prop
  | .load a => a ≤ b ∧ b < a + 4
  | .store a => a ≤ b ∧ b < a + 4

end Sys2Proof.Machine

/-! ### Reset, decoding, the step -/

/-- R37: what reset leaves in every register it gives a value, at power-on and when the host resets an idle block; the
data space and the host are not affected. -/
def Obligations.ResetLeavesStatedValues : Prop :=
  (State.reset.k = Config.KEY ∧ State.reset.phase = .idle ∧ State.reset.status = 0 ∧ State.reset.bufAddr = 0 ∧
    State.reset.bufLen = 0) ∧
  ∀ s rest, s.script = .reset :: rest → s.busy = false →
    ∃ t, step s = .next t ∧ t.k = s.k ∧ t.phase = .idle ∧ t.status = 0 ∧ t.bufAddr = 0 ∧ t.bufLen = 0 ∧
      t.mem = s.mem ∧ t.nonRam = s.nonRam ∧ t.script = rest ∧ t.responses = s.responses

/-- R161: a reset while a command runs puts the block at its reset values; every byte of the command's range holds a
free value (`Config.lostByte`, whatever it is: the statement holds for every one), every other byte is kept. Offering
the step at all is the model's choice (log entry 9). -/
def Obligations.ResetDuringCommandLosesItsRange : Prop :=
  ∀ s rest, s.script = .reset :: rest → s.busy = true → Memory.wf s.mem = true →
    ∃ t, step s = .next t ∧ t.k = s.k ∧ t.phase = .idle ∧ t.status = 0 ∧ t.bufAddr = 0 ∧ t.bufLen = 0 ∧
      Memory.wf t.mem = true ∧
      ∀ b, Memory.read t.mem b =
        if s.latA.toNat ≤ b ∧ b < s.latA.toNat + (if scopeIsBuffer s.op then s.latL.toNat else 16)
        then Config.lostByte s.resets b else Memory.read s.mem b

/-- R61: the four command words, and every other word is illegal. -/
def Obligations.OpcodeMapDecodes : Prop :=
  decode 0x00000000#32 = .ok .encc ∧ decode 0x00000001#32 = .ok .decc ∧
  decode 0x00000002#32 = .ok .encb ∧ decode 0x00000003#32 = .ok .decb ∧
  ∀ w : Word, w.extractLsb' 2 30 ≠ 0 → decode w = .error (.illegalCommand w)

/-- R60, R61: a word decodes to a command exactly when it is that command's encoding, so encoding and decoding agree in
both directions and no two commands share a word. -/
def Obligations.DecodeEncodeAgree : Prop :=
  ∀ (w : Word) (i : Instr), decode w = .ok i ↔ w = encode i

/-- R29, R55: when the host writes a word that decodes to `i`, the step is `exec` of `i` with that action taken off the
script (whether or not a command is running). The script and the one-step command are the model's (log entries 7, 8). -/
def Obligations.StepRunsDecodedCommand : Prop :=
  (∀ s rest w i, s.script = .wr .cmd w :: rest → decode w = .ok i → step s = exec i { s with script := rest }) ∧
  ∀ s i, step (s.withFetchWord 32 (encode i).toNat) = exec i s

/-- R62, R141, R145, R146: an illegal word, whatever the operand registers hold, sets `ILL` and clears `DONE` and
changes nothing else, and a later legal command runs, sets `DONE` and leaves `ILL` set. -/
def Obligations.IllegalCommandIsRecorded : Prop :=
  ∀ s rest w, s.script = .wr .cmd w :: rest → s.busy = false → 4 ≤ w.toNat →
    ∃ t, step s = .next t ∧ t = { s with script := rest, status := t.status } ∧
      t.ill = true ∧ t.done = false ∧ t.busy = false ∧
      (∀ j, illBit < j → t.status.getLsbD j = s.status.getLsbD j) ∧
      ∀ i, RangeOk hw i t → ∃ u, exec i t = .next u ∧ u.done = true ∧ u.ill = true

/-- R30, R141, R160: only a reset clears `ILL`. -/
def Obligations.OnlyResetClearsIll : Prop :=
  ∀ s t, s.ill = true → step s = .next t → (∀ rest, s.script ≠ .reset :: rest) → t.ill = true

/-! ### The commands -/

/-- R140: for every command and every buffer content that meets the range precondition there is one outcome, completion
with `DONE = 1`; the command is refused in every other case. -/
def Obligations.CommandCompletesExactlyInRange : Prop :=
  ∀ i s, (s.busy = false ∧ RangeOk hw i s ↔ ∃ t, exec i s = .next t) ∧
    ∀ t, exec i s = .next t → t.done = true ∧ t.busy = false ∧ t.phase = .idle

/-- R90: `ENCC`. -/
def Obligations.EnccEncryptsChunk : Prop :=
  ∀ s, Memory.wf s.mem = true → s.busy = false → s.bufAddr.toNat + 16 ≤ 2 ^ 32 →
    ordinary s.nonRam s.bufAddr.toNat 16 = true →
    ∃ t, exec .encc s = .next t ∧ ChunkCommandEffect .encc s t

/-- R91: `DECC`. -/
def Obligations.DeccDecryptsChunk : Prop :=
  ∀ s, Memory.wf s.mem = true → s.busy = false → s.bufAddr.toNat + 16 ≤ 2 ^ 32 →
    ordinary s.nonRam s.bufAddr.toNat 16 = true →
    ∃ t, exec .decc s = .next t ∧ ChunkCommandEffect .decc s t

/-- R104, R105: `ENCB` of at least 16 bytes; the result is the closed form. -/
def Obligations.EncbEncryptsBuffer : Prop :=
  ∀ s, Memory.wf s.mem = true → s.busy = false → 16 ≤ s.bufLen.toNat →
    s.bufAddr.toNat + s.bufLen.toNat ≤ 2 ^ 32 → ordinary s.nonRam s.bufAddr.toNat s.bufLen.toNat = true →
    ∃ t, exec .encb s = .next t ∧ BufferCommandEffect .encb (encString hw) s t

/-- R106, R107: `DECB` of at least 16 bytes; the result is the closed form. -/
def Obligations.DecbDecryptsBuffer : Prop :=
  ∀ s, Memory.wf s.mem = true → s.busy = false → 16 ≤ s.bufLen.toNat →
    s.bufAddr.toNat + s.bufLen.toNat ≤ 2 ^ 32 → ordinary s.nonRam s.bufAddr.toNat s.bufLen.toNat = true →
    ∃ t, exec .decb s = .next t ∧ BufferCommandEffect .decb (decString hw) s t

/-- R101: a buffer command below 16 bytes makes no memory access, changes nothing but `STATUS` and `OP`, and completes,
wherever the buffer lies. That `IDX` and the latches keep their values is the model's reading of R109 (log entry 16). -/
def Obligations.ShortBufferIsSilentNoOp : Prop :=
  ∀ s i, (i = .encb ∨ i = .decb) → s.busy = false → s.bufLen.toNat < 16 →
    commandOps hw i s.bufAddr.toNat s.bufLen.toNat = [] ∧
    ∃ t, exec i s = .next t ∧ Completed i t ∧ CommandFrame s t ∧
      t = { s with status := t.status, op := i, phase := .idle }

/-- R47: a command whose range passes the top of the address space is refused; below the no-op floor there is no range. -/
def Obligations.RangePastTopIsRefused : Prop :=
  ∀ s, s.busy = false →
    (2 ^ 32 < s.bufAddr.toNat + 16 →
      exec .encc s = .refused .rangeViolation ∧ exec .decc s = .refused .rangeViolation) ∧
    (16 ≤ s.bufLen.toNat → 2 ^ 32 < s.bufAddr.toNat + s.bufLen.toNat →
      exec .encb s = .refused .rangeViolation ∧ exec .decb s = .refused .rangeViolation) ∧
    (s.bufLen.toNat < 16 → (∃ t, exec .encb s = .next t) ∧ ∃ t, exec .decb s = .next t)

/-- R46: a command on bytes that are not ordinary memory is refused. `b` is such a byte: it lies in the command's range
and in one of the platform's regions (the model's field, log entry 6). -/
def Obligations.NonMemoryRangeIsRefused : Prop :=
  ∀ s i r b, s.busy = false → r ∈ s.nonRam → r.base ≤ b → b < r.base + r.size →
    s.bufAddr.toNat ≤ b → b < s.bufAddr.toNat + rangeLength hw i s.bufLen.toNat →
    s.bufAddr.toNat + rangeLength hw i s.bufLen.toNat ≤ 2 ^ 32 →
    exec i s = .refused .notOrdinaryMemory

/-- R35, R114 (and R25): the bytes a command leaves depend on the key, the length and the bytes of the buffer, and on
nothing else: not on the address, nor on anything another command, a reset or the host left in the machine. -/
def Obligations.ResultDependsOnKeyAndBytesOnly : Prop :=
  ∀ i s s' t t' n, Memory.wf s.mem = true → Memory.wf s'.mem = true → s.k = s'.k → s.bufLen = s'.bufLen →
    n = (if scopeIsBuffer i then s.bufLen.toNat else 16) →
    Memory.memRead s.mem s.bufAddr.toNat n = Memory.memRead s'.mem s'.bufAddr.toNat n →
    exec i s = .next t → exec i s' = .next t' →
    Memory.memRead t.mem s.bufAddr.toNat n = Memory.memRead t'.mem s'.bufAddr.toNat n

/-! ### The engine -/

/-- R86: the worked values of `Mix` and of the shifts, and subtraction undoes addition. The formula of `Mix` is from
general knowledge (R82, log entry 1). -/
def Obligations.ArithmeticWorkedValues : Prop :=
  mix 0 0x9E3779B9 0 0 = 0x9E3779B9 ∧
  mix 0xFFFFFFFF 0xFFFFFFFF 0xFFFFFFFF 0xFFFFFFFF = 0x07FFFFEF ∧
  mix 0x80000000 0 0 0 = 0x84000000 ∧
  shl32 0xFFFFFFFF 4 = 0xFFFFFFF0 ∧ shr32 0xFFFFFFFF 5 = 0x07FFFFFF ∧ shr32 0x80000000 5 = 0x04000000 ∧
  ∀ a b : Word, sub32 (add32 a b) b = a ∧ add32 (sub32 a b) b = a

/-- R81: the round-sum schedule, for every mixing function: after forward round `i` the sum is `i * DELTA`, after inverse
round `i` it is `DEC_SUM_INIT - i * DELTA`; forward round `i` uses the `i`-th value, inverse round `j` the `(33-j)`-th;
and the 32 values. -/
def Obligations.RoundSumSchedule : Prop :=
  ∀ (f : Word → Word → Word → Word → Word) (k : Key) (v0 v1 : Word),
    (∀ i, i ≤ 32 → (rounds (encRound f k) i ⟨v0, v1, 0⟩).sum = BitVec.ofNat 32 i * 0x9E3779B9 ∧
      (rounds (decRound f k) i ⟨v0, v1, 0xC6EF3720⟩).sum = BitVec.ofNat 32 (32 - i) * 0x9E3779B9) ∧
    (∀ i, i < 32 → ∀ r, r = rounds (encRound f k) i ⟨v0, v1, 0⟩ →
      (rounds (encRound f k) (i + 1) ⟨v0, v1, 0⟩).v0 =
        r.v0 + f r.v1 (BitVec.ofNat 32 (i + 1) * 0x9E3779B9) k.k0 k.k1) ∧
    (∀ j, j < 32 → ∀ r, r = rounds (decRound f k) j ⟨v0, v1, 0xC6EF3720⟩ →
      (rounds (decRound f k) (j + 1) ⟨v0, v1, 0xC6EF3720⟩).v1 =
        r.v1 - f r.v0 (BitVec.ofNat 32 (32 - j) * 0x9E3779B9) k.k2 k.k3) ∧
    (List.range 32).map (fun i => (rounds (encRound f k) (i + 1) ⟨v0, v1, 0⟩).sum) =
      [0x9E3779B9, 0x3C6EF372, 0xDAA66D2B, 0x78DDE6E4, 0x1715609D, 0xB54CDA56, 0x5384540F, 0xF1BBCDC8,
       0x8FF34781, 0x2E2AC13A, 0xCC623AF3, 0x6A99B4AC, 0x08D12E65, 0xA708A81E, 0x454021D7, 0xE3779B90,
       0x81AF1549, 0x1FE68F02, 0xBE1E08BB, 0x5C558274, 0xFA8CFC2D, 0x98C475E6, 0x36FBEF9F, 0xD5336958,
       0x736AE311, 0x11A25CCA, 0xAFD9D683, 0x4E11503C, 0xEC48C9F5, 0x8A8043AE, 0x28B7BD67, 0xC6EF3720]

/-- R85: for every key, every mixing function and all words, the two block transforms undo each other. -/
def Obligations.BlockTransformsAreInverse : Prop :=
  ∀ (cfg : Config) (f : Word → Word → Word → Word → Word) (k : Key) (v0 v1 : Word), cfg.roundFn = roundFnOf f →
    (let r := encBlock cfg k v0 v1
     (decBlock cfg k r.v0 r.v1).v0 = v0 ∧ (decBlock cfg k r.v0 r.v1).v1 = v1) ∧
    (let r := decBlock cfg k v0 v1
     (encBlock cfg k r.v0 r.v1).v0 = v0 ∧ (encBlock cfg k r.v0 r.v1).v1 = v1)

/-- R89: the chunk operations undo each other at every address, for every mixing function, byte order and chunk size;
they load and store no byte outside the chunk and change none; and the result does not depend on the address. -/
def Obligations.ChunkOperationsAreInverse : Prop :=
  ∀ (cfg : Config) (f : Word → Word → Word → Word → Word) (a : Nat) (s : State), cfg.wf = true →
    cfg.roundFn = roundFnOf f → Memory.wf s.mem = true →
    (chunkOp cfg .inv a (chunkOp cfg .fwd a s)).mem = s.mem ∧
    (chunkOp cfg .fwd a (chunkOp cfg .inv a s)).mem = s.mem ∧
    ∀ d, (∀ e ∈ accessesOf (chunkOps cfg d a), ∀ b, e.moves b → a ≤ b ∧ b < a + cfg.chunkBytes) ∧
      (∀ b, b < a ∨ a + cfg.chunkBytes ≤ b → Memory.read (chunkOp cfg d a s).mem b = Memory.read s.mem b) ∧
      ∀ (a' : Nat) (s' : State), Memory.wf s'.mem = true → s'.k = s.k →
        Memory.memRead s'.mem a' cfg.chunkBytes = Memory.memRead s.mem a cfg.chunkBytes →
        Memory.memRead (chunkOp cfg d a' s').mem a' cfg.chunkBytes =
          Memory.memRead (chunkOp cfg d a s).mem a cfg.chunkBytes

/-- R46, R87, R171: the memory events of a 16-byte chunk operation in order, and each byte of the chunk is loaded by
exactly one of them and stored by exactly one. -/
def Obligations.ChunkMemoryEvents : Prop :=
  ∀ (d : Dir) (a : Nat),
    accessesOf (chunkOps hw d a) =
      [.load a, .load (a + 4), .store a, .store (a + 4),
       .load (a + 8), .load (a + 12), .store (a + 8), .store (a + 12)] ∧
    ∀ b, a ≤ b → b < a + 16 →
      (∃ x, .load x ∈ accessesOf (chunkOps hw d a) ∧ x ≤ b ∧ b < x + 4 ∧
        ∀ y, .load y ∈ accessesOf (chunkOps hw d a) → y ≤ b → b < y + 4 → y = x) ∧
      ∃ x, .store x ∈ accessesOf (chunkOps hw d a) ∧ x ≤ b ∧ b < x + 4 ∧
        ∀ y, .store y ∈ accessesOf (chunkOps hw d a) → y ≤ b → b < y + 4 → y = x

/-! ### The driver -/

/-- R50, R104, R106, R109: the memory a command leaves is what its engine actions, one after another in the order of
the pseudocode, make of the memory it found, for every configuration. -/
def Obligations.CommandRunsItsEngineActionsInOrder : Prop :=
  ∀ (cfg : Config) (i : Instr) (s : State), cfg.wf = true →
    (runCommand cfg i s).mem = (runOps cfg (commandOps cfg i s.bufAddr.toNat s.bufLen.toNat) s).mem

/-- R103: a buffer command of at least a chunk loads and stores every byte of the buffer at least once and touches no byte
outside it, for every configuration. -/
def Obligations.BufferCommandTouchesExactlyItsBuffer : Prop :=
  ∀ (cfg : Config) (i : Instr) (a l : Nat), cfg.wf = true → scopeIsBuffer i = true → cfg.chunkBytes ≤ l →
    (∀ e ∈ accessesOf (commandOps cfg i a l), ∀ b, e.moves b → a ≤ b ∧ b < a + l) ∧
    ∀ b, a ≤ b → b < a + l →
      (∃ x, .load x ∈ accessesOf (commandOps cfg i a l) ∧ x ≤ b ∧ b < x + 4) ∧
      ∃ x, .store x ∈ accessesOf (commandOps cfg i a l) ∧ x ≤ b ∧ b < x + 4

/-- R105, R107: the closed forms, for every configuration: chunk size, byte order, round function, and either value of
`TAIL_PASS_WHEN_ALIGNED`; every byte outside the buffer is kept. -/
def Obligations.BufferCommandsMeetTheClosedForms : Prop :=
  ∀ (cfg : Config) (s : State), cfg.wf = true → Memory.wf s.mem = true →
    Replaces s.mem (runEncb cfg s).mem s.bufAddr.toNat
      (encString cfg s.k (Memory.memRead s.mem s.bufAddr.toNat s.bufLen.toNat)) ∧
    Replaces s.mem (runDecb cfg s).mem s.bufAddr.toNat
      (decString cfg s.k (Memory.memRead s.mem s.bufAddr.toNat s.bufLen.toNat))

/-- R108: `DECB` after `ENCB`, and `ENCB` after `DECB`, restores memory, for every key, length, content, mixing function,
byte order, chunk size and either value of `TAIL_PASS_WHEN_ALIGNED`; and so of the machine itself. -/
def Obligations.BufferRoundTrip : Prop :=
  (∀ (cfg : Config) (f : Word → Word → Word → Word → Word) (s : State), cfg.wf = true → cfg.roundFn = roundFnOf f →
    Memory.wf s.mem = true →
    (runDecb cfg (runEncb cfg s)).mem = s.mem ∧ (runEncb cfg (runDecb cfg s)).mem = s.mem) ∧
  ∀ s, Memory.wf s.mem = true → s.busy = false → RangeOk hw .encb s →
    (∃ t u, exec .encb s = .next t ∧ exec .decb t = .next u ∧ u.mem = s.mem) ∧
    ∃ t u, exec .decb s = .next t ∧ exec .encb t = .next u ∧ u.mem = s.mem

/-- R111: on an aligned length every 8-byte block is transformed on its own; on any length the first `q - 1` chunks of
the ciphertext depend on their own plaintext chunks, and with a tail the next `r` bytes on `P_{q-1}` alone. -/
def Obligations.CiphertextDependsOnItsOwnChunks : Prop :=
  ∀ (k : Key) (P : List Byte), 16 ≤ P.length →
    (P.length % 16 = 0 → encString hw k P = mapPieces 8 (blockString hw .fwd k) (P.length / 8) P) ∧
    (encString hw k P).length = P.length ∧
    (encString hw k P).take ((P.length / 16 - 1) * 16) = mapPieces 16 (chunkString hw .fwd k) (P.length / 16 - 1) P ∧
    (P.length % 16 ≠ 0 →
      ((encString hw k P).drop ((P.length / 16 - 1) * 16)).take (P.length % 16) =
        (chunkString hw .fwd k ((P.drop ((P.length / 16 - 1) * 16)).take 16)).take (P.length % 16))

/-- R110: starting a command and then making its micro-steps (R109), one for each chunk operation (R171), ends in
exactly the state the whole command ends in, for every configuration and every state. -/
def Obligations.MicroStepsRefineTheCommand : Prop :=
  ∀ (cfg : Config) (i : Instr) (s : State), cfg.wf = true →
    microSteps cfg (chunkCount cfg i s.bufLen.toNat) (begin cfg i s) = .next (runCommand cfg i s)

/-- R92, R109, R171: a running command left alone ends, after at most one step for each chunk and one for the window,
with `DONE` set. That a step with no host action waiting is a micro-step is the model's choice (log entry 8). -/
def Obligations.RunningCommandTerminates : Prop :=
  ∀ s, StateInv s → s.script = [] → s.busy = true →
    ∃ n t, n ≤ s.latL.toNat / 16 + 1 ∧ Host.Core.run core n s = .next t ∧ t.busy = false ∧ t.done = true ∧ t.phase = .idle

/-! ### The host's side -/

/-- R28: the register map. `CMD` reads 0, `STATUS` is read-only, the operand registers read back what was written, and the
reserved offsets read 0 and ignore writes; each with its reset value. R28 says the last within the block's page and
gives the page no size: that EVERY offset from `0x10` up is such an offset is the model's choice (log entry 11). -/
def Obligations.RegisterMap : Prop :=
  (State.reset.status = 0 ∧ State.reset.bufAddr = 0 ∧ State.reset.bufLen = 0) ∧
  (∀ s, readRegister s 0x00 = 0 ∧ readRegister s 0x04 = s.status ∧ readRegister s 0x08 = s.bufAddr ∧
    readRegister s 0x0C = s.bufLen) ∧
  (∀ s offset, 0x10 ≤ offset → readRegister s offset = 0) ∧
  (∀ s rest offset, s.script = .regRead offset .word :: rest → offset % 4 = 0 →
    step s = .next { s with script := rest, responses := s.responses ++ [.reg offset (readRegister s offset)] }) ∧
  ∀ s rest offset v, s.script = .regWrite offset .word v :: rest → offset % 4 = 0 →
    ((offset = 0x04 ∨ 0x10 ≤ offset) → step s = .next { s with script := rest }) ∧
    (offset = 0x08 → s.busy = false → step s = .next { s with script := rest, bufAddr := v }) ∧
    (offset = 0x0C → s.busy = false → step s = .next { s with script := rest, bufLen := v })

/-- R58: a register access that is narrower than 32 bits or not at a multiple of 4 is refused, read or write. -/
def Obligations.NarrowRegisterAccessIsRefused : Prop :=
  ∀ s rest offset width v, (width ≠ .word ∨ offset % 4 ≠ 0) →
    (s.script = .regWrite offset width v :: rest → step s = .refused .badRegisterAccess) ∧
    (s.script = .regRead offset width :: rest → step s = .refused .badRegisterAccess)

/-- R142: while a command runs, a write to `CMD`, `BUF_ADDR` or `BUF_LEN` is refused, and reads return the current
values: the whole of `STATUS`, in which `BUSY = 1` and `DONE = 0`, and the operand registers. -/
def Obligations.WritesWhileBusyAreRefused : Prop :=
  ∀ s rest, s.busy = true → StateInv s →
    (∀ r v, r ≠ .status → s.script = .wr r v :: rest → step s = .refused .writeWhileBusy) ∧
    (s.script = .rd .status :: rest →
      step s = .next { s with script := rest, responses := s.responses ++ [.reg 0x04 s.status] } ∧
        s.status.getLsbD 0 = true ∧ s.status.getLsbD 1 = false) ∧
    (s.script = .rd .bufAddr :: rest →
      step s = .next { s with script := rest, responses := s.responses ++ [.reg 0x08 s.bufAddr] }) ∧
    (s.script = .rd .bufLen :: rest →
      step s = .next { s with script := rest, responses := s.responses ++ [.reg 0x0C s.bufLen] })

/-- R57, R165: while a command runs the host may not store to or load from a byte of its range. -/
def Obligations.HostIsShutOutOfTheBusyRange : Prop :=
  ∀ s rest a n bs b, s.busy = true → bs.length = n → s.latA.toNat ≤ b →
    b < s.latA.toNat + (if scopeIsBuffer s.op then s.latL.toNat else 16) → a.toNat ≤ b → b < a.toNat + n →
    (s.script = .poke a bs :: rest → ∃ r, step s = .refused r) ∧
    (s.script = .peek a n :: rest → ∃ r, step s = .refused r)

/-- R67: each pseudo-instruction is its expansion: from an idle state it ends as the command does on the operands it
names, and `WAIT` after completion is one read of `STATUS` (polling before it is the model's, log entry 15). -/
def Obligations.PseudoInstructionsExpand : Prop :=
  ∀ s a l, s.busy = false →
    Host.Core.run core 2 { s with script := HostAction.pseudoEncc a } =
      exec .encc { s with bufAddr := a, script := [] } ∧
    Host.Core.run core 2 { s with script := HostAction.pseudoDecc a } =
      exec .decc { s with bufAddr := a, script := [] } ∧
    Host.Core.run core 3 { s with script := HostAction.pseudoEncb a l } =
      exec .encb { s with bufAddr := a, bufLen := l, script := [] } ∧
    Host.Core.run core 3 { s with script := HostAction.pseudoDecb a l } =
      exec .decb { s with bufAddr := a, bufLen := l, script := [] } ∧
    ∀ rest, s.script = .wait :: rest → s.done = true →
      step s = .next { s with script := rest, responses := s.responses ++ [.reg 0x04 s.status] }

/-- R40, R41, R66: `POKE` sets the bytes it names and no other, and a `PEEK` returns the bytes of memory, from every
state in which the access is allowed. -/
def Obligations.HostDataAccess : Prop :=
  ∀ s rest a, Memory.wf s.mem = true →
    (∀ bs, s.script = .poke a bs :: rest → DataAccessOk hw s a.toNat bs.length →
      ∃ t, step s = .next t ∧ t = { s with script := rest, mem := t.mem } ∧ Replaces s.mem t.mem a.toNat bs) ∧
    ∀ n, s.script = .peek a n :: rest → DataAccessOk hw s a.toNat n →
      ∃ data, step s = .next { s with script := rest, responses := s.responses ++ [.bytes a data] } ∧
        data.length = n ∧ ∀ j, j < n → data.getD j 0 = Memory.read s.mem (a.toNat + j)

/-! ### Whole-machine rules -/

/-- R42, R43: `WordOfBytes` is the spec's formula, the two conversions are inverse for either byte order, and
`StoreWord` then `LoadWord` at any address, aligned or not, gives the word back (R45). -/
def Obligations.ByteOrderConversions : Prop :=
  (∀ b0 b1 b2 b3 : Byte,
    (wordOfBytes .le b0 b1 b2 b3).toNat = b0.toNat + 2 ^ 8 * b1.toNat + 2 ^ 16 * b2.toNat + 2 ^ 24 * b3.toNat ∧
    (wordOfBytes .be b0 b1 b2 b3).toNat = 2 ^ 24 * b0.toNat + 2 ^ 16 * b1.toNat + 2 ^ 8 * b2.toNat + b3.toNat ∧
    ∀ bo, bytesOfWord bo (wordOfBytes bo b0 b1 b2 b3) = [b0, b1, b2, b3]) ∧
  (∀ w : Word,
    bytesOfWord .le w = [w.extractLsb' 0 8, w.extractLsb' 8 8, w.extractLsb' 16 8, w.extractLsb' 24 8] ∧
    bytesOfWord .be w = [w.extractLsb' 24 8, w.extractLsb' 16 8, w.extractLsb' 8 8, w.extractLsb' 0 8]) ∧
  ∀ (cfg : Config) (m : Memory) (a : Nat) (w : Word), Memory.wf m = true →
    Memory.loadWord cfg (Memory.storeWord cfg m a w) a = w ∧ Replaces m (Memory.storeWord cfg m a w) a (bytesOfWord cfg.byteOrder w)

/-- R20, R34, R57: a byte of the data space changes in a step only by a host store that covers it, by a command whose
range holds it, by a running command whose range holds it, or by a reset that interrupts such a command. -/
def Obligations.MemoryChangesOnlyInOwnedRanges : Prop :=
  ∀ s t b, StateInv s → step s = .next t → Memory.read t.mem b ≠ Memory.read s.mem b →
    (∃ a bs rest, s.script = .poke a bs :: rest ∧ a.toNat ≤ b ∧ b < a.toNat + bs.length) ∨
    (∃ w i rest, s.script = .wr .cmd w :: rest ∧ decode w = .ok i ∧ s.bufAddr.toNat ≤ b ∧
      b < s.bufAddr.toNat + rangeLength hw i s.bufLen.toNat) ∨
    (s.busy = true ∧ (s.script = [] ∨ ∃ rest, s.script = .wait :: rest ∨ s.script = .reset :: rest) ∧
      s.latA.toNat ≤ b ∧ b < s.latA.toNat + s.busyLength hw)

/-- R31, R32: the operand registers change only when the host writes them, with the value it wrote, or by reset; no
command writes them. -/
def Obligations.OperandRegistersAreTheHosts : Prop :=
  ∀ s t, step s = .next t →
    (t.bufAddr = s.bufAddr ∨ (∃ rest, s.script = .wr .bufAddr t.bufAddr :: rest) ∨
      ∃ rest, s.script = .reset :: rest) ∧
    (t.bufLen = s.bufLen ∨ (∃ rest, s.script = .wr .bufLen t.bufLen :: rest) ∨ ∃ rest, s.script = .reset :: rest)

/-- R21, R147, D18: no step changes the key, and no register read depends on it. -/
def Obligations.KeyIsConstantAndUnreadable : Prop :=
  (∀ s t, step s = .next t → t.k = s.k) ∧
  ∀ s k' offset, readRegister { s with k := k' } offset = readRegister s offset

/-- The invariant holds after reset. -/
def Obligations.ResetMeetsTheInvariant : Prop := StateInv State.reset

/-- Every step keeps the invariant: canonical memory inside the data space, the key hardwired (R21), `STATUS[31:3]` zero
and `BUSY`, `DONE` never both 1 (R30), and the sequencer at a row of R109 with its range in order (R26, R47). -/
def Obligations.StepKeepsTheInvariant : Prop := ∀ s t, StateInv s → step s = .next t → StateInv t

/-- R132, R162, R165: with the host's duties kept the step runs, and only then; with no host action waiting it always
runs. The model's choices it rests on: a host access past the top or on bytes that are not ordinary memory is refused
(log entry 13), a reset runs while a command does (log entry 9), so does a `WAIT` (log entry 15), and a step with no
action waiting is a micro-step or the idle block's (log entry 8). -/
def Obligations.StepRunsExactlyWhenTheHostKeepsItsDuties : Prop :=
  ∀ s, StateInv s →
    (∀ a rest, s.script = a :: rest → (HostDuty hw s a ↔ ∃ t, step s = .next t)) ∧
    (s.script = [] → ∃ t, step s = .next t)
end

