-- ==== Sys2Proof/Laws/Memory.lean ====
section
/-! SUPPORT. The laws of memory: the canonical form is kept, a read after a write, and canonical memories with the same
reads are equal. -/

namespace Sys2Proof.Machine.Memory

/-- A canonical tail lists nothing below its first address. -/
theorem read_below {m : Memory} {lo a : Nat} (h : wfFrom lo m = true) (ha : a < lo) :
    read m a = background a := by
  induction m generalizing lo with
  | nil => rfl
  | cons c m ih =>
    obtain ⟨b, v⟩ := c
    simp only [wfFrom, Bool.and_eq_true, decide_eq_true_eq] at h
    have hne : ¬ b = a := by omega
    simp only [read, hne, if_false]
    exact ih h.2 (by omega)

theorem wfFrom_mono {m : Memory} {lo lo' : Nat} (h : wfFrom lo m = true) (hl : lo' ≤ lo) :
    wfFrom lo' m = true := by
  cases m with
  | nil => rfl
  | cons c m =>
    obtain ⟨b, v⟩ := c
    simp only [wfFrom, Bool.and_eq_true, decide_eq_true_eq] at h ⊢
    exact ⟨⟨by omega, h.1.2⟩, h.2⟩

/-- A write keeps the canonical form. -/
theorem wfFrom_write {m : Memory} {lo a : Nat} (v : Byte) (h : wfFrom lo m = true) (ha : lo ≤ a) :
    wfFrom lo (write m a v) = true := by
  induction m generalizing lo with
  | nil =>
    by_cases hv : v = background a
    · simp [write, hv, wfFrom]
    · simp [write, hv, wfFrom, ha]
  | cons c m ih =>
    obtain ⟨b, w⟩ := c
    have h' := h
    simp only [wfFrom, Bool.and_eq_true, decide_eq_true_eq, bne_iff_ne] at h
    obtain ⟨⟨hlo, hw⟩, hm⟩ := h
    rcases Nat.lt_trichotomy a b with hab | hab | hab
    · by_cases hv : v = background a
      · simpa [write, hab, hv] using h'
      · simp [write, hab, hv, wfFrom, ha, hm, hw, Nat.succ_le_of_lt hab]
    · subst hab
      by_cases hv : v = background a
      · simpa [write, hv] using wfFrom_mono hm (by omega)
      · simp [write, hv, wfFrom, ha, hm]
    · have h1 : ¬ a < b := by omega
      have h2 : ¬ a = b := by omega
      simp [write, h1, h2, wfFrom, hlo, hw, ih hm (by omega)]

/-- The byte read after a write: the written one at that address, the old one anywhere else. -/
theorem read_write_from {m : Memory} {lo : Nat} (a : Nat) (v : Byte) (h : wfFrom lo m = true) (b : Nat) :
    read (write m a v) b = if b = a then v else read m b := by
  induction m generalizing lo with
  | nil =>
    by_cases hv : v = background a
    · by_cases hb : b = a
      · subst hb; simp [write, hv, read]
      · simp [write, hv, read, hb]
    · by_cases hb : b = a
      · subst hb; simp [write, hv, read]
      · simp [write, hv, read, hb, Ne.symm hb]
  | cons c m ih =>
    obtain ⟨x, w⟩ := c
    simp only [wfFrom, Bool.and_eq_true, decide_eq_true_eq, bne_iff_ne] at h
    obtain ⟨⟨hlo, hw⟩, hm⟩ := h
    rcases Nat.lt_trichotomy a x with hax | hax | hax
    · by_cases hv : v = background a
      · by_cases hb : b = a
        · subst hb
          have hxb : ¬ x = b := by omega
          simp [write, hax, hv, read, hxb, read_below hm (show b < x + 1 by omega)]
        · simp [write, hax, hv, hb]
      · by_cases hb : b = a
        · subst hb; simp [write, hax, hv, read]
        · simp [write, hax, hv, read, hb, Ne.symm hb]
    · subst hax
      by_cases hb : b = a
      · subst hb
        by_cases hv : v = background b
        · simp [write, hv, read_below hm (show b < b + 1 by omega)]
        · simp [write, hv, read]
      · by_cases hv : v = background a
        · simp [write, hv, read, hb, Ne.symm hb]
        · simp [write, hv, read, hb, Ne.symm hb]
    · have h1 : ¬ a < x := by omega
      have h2 : ¬ a = x := by omega
      by_cases hxb : x = b
      · subst hxb
        have : ¬ x = a := by omega
        simp [write, h1, h2, read, this]
      · simp [write, h1, h2, read, hxb, ih hm]

@[simp] theorem read_write {m : Memory} (h : wf m = true) (a : Nat) (v : Byte) (b : Nat) :
    read (write m a v) b = if b = a then v else read m b := read_write_from a v h b

@[simp] theorem wf_write {m : Memory} (h : wf m = true) (a : Nat) (v : Byte) : wf (write m a v) = true :=
  wfFrom_write v h (Nat.zero_le a)

/-- Canonical memories with the same reads are equal. -/
theorem ext_from {m m' : Memory} {lo : Nat} (h : wfFrom lo m = true) (h' : wfFrom lo m' = true)
    (hr : ∀ b, read m b = read m' b) : m = m' := by
  induction m generalizing lo m' with
  | nil =>
    cases m' with
    | nil => rfl
    | cons c m' =>
      obtain ⟨a, v⟩ := c
      simp only [wfFrom, Bool.and_eq_true, decide_eq_true_eq, bne_iff_ne] at h'
      exact absurd (by simpa [read] using (hr a).symm) h'.1.2
  | cons c m ih =>
    obtain ⟨a, v⟩ := c
    have hw := h
    simp only [wfFrom, Bool.and_eq_true, decide_eq_true_eq, bne_iff_ne] at hw
    cases m' with
    | nil => exact absurd (by simpa [read] using hr a) hw.1.2
    | cons c' m' =>
      obtain ⟨a', v'⟩ := c'
      have hw' := h'
      simp only [wfFrom, Bool.and_eq_true, decide_eq_true_eq, bne_iff_ne] at hw'
      rcases Nat.lt_trichotomy a a' with haa | haa | haa
      · have := hr a
        have hne : ¬ a' = a := by omega
        simp only [read, if_true, hne, if_false] at this
        exact absurd (this.trans (read_below hw'.2 (by omega))) hw.1.2
      · subst haa
        have hv : v = v' := by simpa [read] using hr a
        subst hv
        rw [ih hw.2 hw'.2]
        intro b
        by_cases hb : a = b
        · subst hb
          rw [read_below hw.2 (by omega), read_below hw'.2 (by omega)]
        · simpa [read, hb] using hr b
      · have := hr a'
        have hne : ¬ a = a' := by omega
        simp only [read, if_true, hne, if_false] at this
        exact absurd (this.symm.trans (read_below hw.2 (by omega))) hw'.1.2

theorem ext {m m' : Memory} (h : wf m = true) (h' : wf m' = true) (hr : ∀ b, read m b = read m' b) : m = m' :=
  ext_from h h' hr

/-- A write inside the data space lists no address outside it. -/
theorem inSpace_write {m : Memory} {a : Nat} (v : Byte) (h : inSpace m = true) (ha : a < Config.ADDR_SPACE) :
    inSpace (write m a v) = true := by
  induction m with
  | nil => by_cases hv : v = background a <;> simp [write, hv, inSpace, ha]
  | cons c m ih =>
    obtain ⟨b, w⟩ := c
    simp only [inSpace, List.all_cons, Bool.and_eq_true, decide_eq_true_eq] at h ih ⊢
    rcases Nat.lt_trichotomy a b with hab | hab | hab
    · by_cases hv : v = background a <;> simp [write, hab, hv, ha, h.1] <;> simpa using h.2
    · subst hab
      by_cases hv : v = background a <;> simp [write, hv, ha] <;> simpa using h.2
    · have h1 : ¬ a < b := by omega
      have h2 : ¬ a = b := by omega
      simp only [write, h1, h2, if_false, List.all_cons, Bool.and_eq_true, decide_eq_true_eq]
      exact ⟨h.1, ih h.2⟩

@[simp] theorem wf_memWrite {m : Memory} (h : wf m = true) (a : Nat) (bs : List Byte) :
    wf (memWrite m a bs) = true := by
  induction bs generalizing m a with
  | nil => exact h
  | cons b bs ih => exact ih (wf_write h a b) (a + 1)

/-- `MemWrite` writes its bytes from `a` on and changes no other byte (R41). -/
theorem read_memWrite {m : Memory} (h : wf m = true) (a : Nat) (bs : List Byte) (b : Nat) :
    read (memWrite m a bs) b = if a ≤ b ∧ b < a + bs.length then bs.getD (b - a) 0 else read m b := by
  induction bs generalizing m a with
  | nil => simp [memWrite, show ¬ (a ≤ b ∧ b < a) by omega]
  | cons v bs ih =>
    rw [memWrite, ih (wf_write h a v), read_write h, List.length_cons]
    by_cases hb : b = a
    · subst hb
      simp
    · by_cases hin : a + 1 ≤ b ∧ b < a + 1 + bs.length
      · have h2 : a ≤ b ∧ b < a + (bs.length + 1) := by omega
        rw [if_pos hin, if_pos h2]
        obtain ⟨n, hn⟩ : ∃ n, b - a = n + 1 := ⟨b - a - 1, by omega⟩
        rw [hn, List.getD_cons_succ, show b - (a + 1) = n by omega]
      · rw [if_neg hin, if_neg hb, if_neg (by omega)]

theorem inSpace_memWrite {m : Memory} {a : Nat} {bs : List Byte} (h : inSpace m = true)
    (ha : a + bs.length ≤ Config.ADDR_SPACE) : inSpace (memWrite m a bs) = true := by
  induction bs generalizing m a with
  | nil => exact h
  | cons b bs ih =>
    rw [List.length_cons] at ha
    exact ih (inSpace_write b h (by omega)) (by omega)

@[simp] theorem length_memRead (m : Memory) (a n : Nat) : (memRead m a n).length = n := by
  induction n generalizing a with
  | zero => rfl
  | succ n ih => simp [memRead, ih]

/-- The bytes of `MemRead` (R41). -/
theorem getD_memRead (m : Memory) (a n i : Nat) (hi : i < n) (d : Byte) :
    (memRead m a n).getD i d = read m (a + i) := by
  induction n generalizing a i with
  | zero => omega
  | succ n ih =>
    cases i with
    | zero => simp [memRead]
    | succ i => rw [memRead, List.getD_cons_succ, ih (a + 1) i (by omega), show a + 1 + i = a + (i + 1) by omega]

/-- Two reads of `n` bytes agree when their bytes do. -/
theorem memRead_congr {m m' : Memory} {a a' n : Nat} (h : ∀ i, i < n → read m (a + i) = read m' (a' + i)) :
    memRead m a n = memRead m' a' n := by
  induction n generalizing a a' with
  | zero => rfl
  | succ n ih =>
    rw [memRead, memRead, show read m a = read m' a' by simpa using h 0 (by omega)]
    congr 1
    apply ih
    intro i hi
    have := h (i + 1) (by omega)
    rwa [show a + 1 + i = a + (i + 1) by omega, show a' + 1 + i = a' + (i + 1) by omega]

theorem memRead_add (m : Memory) (a n n' : Nat) : memRead m a (n + n') = memRead m a n ++ memRead m (a + n) n' := by
  induction n generalizing a with
  | zero => simp [memRead]
  | succ n ih => rw [show n + 1 + n' = (n + n') + 1 by omega, memRead, ih, memRead, List.cons_append,
      show a + 1 + n = a + (n + 1) by omega]

@[simp] theorem wf_loseBytes (r : Nat) {m : Memory} (h : wf m = true) (a n : Nat) :
    wf (loseBytes r m a n) = true := by
  induction n generalizing m a with
  | zero => exact h
  | succ n ih => exact ih (wf_write h a _) (a + 1)

/-- What a reset during a command leaves in memory (R161). -/
theorem read_loseBytes (r : Nat) {m : Memory} (h : wf m = true) (a n b : Nat) :
    read (loseBytes r m a n) b = if a ≤ b ∧ b < a + n then Config.lostByte r b else read m b := by
  induction n generalizing m a with
  | zero => simp [loseBytes, show ¬ (a ≤ b ∧ b < a) by omega]
  | succ n ih =>
    rw [loseBytes, ih (wf_write h a _), read_write h]
    by_cases hb : b = a
    · subst hb
      simp
    · by_cases hin : a + 1 ≤ b ∧ b < a + 1 + n
      · rw [if_pos hin, if_pos (by omega)]
      · rw [if_neg hin, if_neg hb, if_neg (by omega)]

theorem inSpace_loseBytes (r : Nat) {m : Memory} {a n : Nat} (h : inSpace m = true)
    (ha : a + n ≤ Config.ADDR_SPACE) : inSpace (loseBytes r m a n) = true := by
  induction n generalizing m a with
  | zero => exact h
  | succ n ih => exact ih (inSpace_write _ h (by omega)) (by omega)

/-- Writing back what is there changes nothing. -/
theorem memWrite_memRead {m : Memory} (h : wf m = true) (a n : Nat) : memWrite m a (memRead m a n) = m := by
  apply ext (by simp [h]) h
  intro b
  rw [read_memWrite h]
  split_ifs with hb
  · rw [getD_memRead _ _ _ _ (by simp at hb; omega)]; congr 1; omega
  · rfl

/-- A second write of as many bytes at the same place replaces the first. -/
theorem memWrite_memWrite_same {m : Memory} (h : wf m = true) (a : Nat) {xs ys : List Byte} (hl : xs.length = ys.length) :
    memWrite (memWrite m a xs) a ys = memWrite m a ys := by
  apply ext (by simp [h]) (by simp [h])
  intro b
  rw [read_memWrite (by simp [h]), read_memWrite h, read_memWrite h, hl]
  split_ifs <;> rfl

/-- A read inside the bytes written. -/
theorem memRead_memWrite_inside {m : Memory} (h : wf m = true) (a : Nat) {bs : List Byte} {o n : Nat}
    (hon : o + n ≤ bs.length) : memRead (memWrite m a bs) (a + o) n = (bs.drop o).take n := by
  apply List.ext_getElem (by simp; omega)
  intro i h1 h2
  have h1' : i < n := by simpa using h1
  have := getD_memRead (memWrite m a bs) (a + o) n i h1' 0
  rw [List.getD_eq_getElem _ _ h1, read_memWrite h, if_pos (by omega), show a + o + i - a = o + i by omega,
    List.getD_eq_getElem _ _ (by omega)] at this
  rw [this]; simp

end Sys2Proof.Machine.Memory
end

