-- ==== Sys2Proof/Laws/State.lean ====
section
/-! SUPPORT. The fields of a state after each named update: one lemma per field and update, each true by `rfl`, so that
no proof unfolds an update. -/

namespace Sys2Proof.Machine.State

section Started

variable (i : Instr) (s : State)

@[simp] theorem started_k : (s.started i).k = s.k := rfl
@[simp] theorem started_v0 : (s.started i).v0 = s.v0 := rfl
@[simp] theorem started_v1 : (s.started i).v1 = s.v1 := rfl
@[simp] theorem started_sum : (s.started i).sum = s.sum := rfl
@[simp] theorem started_rnd : (s.started i).rnd = s.rnd := rfl
@[simp] theorem started_op : (s.started i).op = i := rfl
@[simp] theorem started_phase : (s.started i).phase = s.phase := rfl
@[simp] theorem started_idx : (s.started i).idx = s.idx := rfl
@[simp] theorem started_latA : (s.started i).latA = s.latA := rfl
@[simp] theorem started_latL : (s.started i).latL = s.latL := rfl
@[simp] theorem started_status : (s.started i).status = statusStarted s.status := rfl
@[simp] theorem started_bufAddr : (s.started i).bufAddr = s.bufAddr := rfl
@[simp] theorem started_bufLen : (s.started i).bufLen = s.bufLen := rfl
@[simp] theorem started_mem : (s.started i).mem = s.mem := rfl
@[simp] theorem started_nonRam : (s.started i).nonRam = s.nonRam := rfl
@[simp] theorem started_script : (s.started i).script = s.script := rfl
@[simp] theorem started_responses : (s.started i).responses = s.responses := rfl
@[simp] theorem started_resets : (s.started i).resets = s.resets := rfl

end Started

section Completed

variable (s : State)

@[simp] theorem completed_k : (s.completed).k = s.k := rfl
@[simp] theorem completed_v0 : (s.completed).v0 = s.v0 := rfl
@[simp] theorem completed_v1 : (s.completed).v1 = s.v1 := rfl
@[simp] theorem completed_sum : (s.completed).sum = s.sum := rfl
@[simp] theorem completed_rnd : (s.completed).rnd = s.rnd := rfl
@[simp] theorem completed_op : (s.completed).op = s.op := rfl
@[simp] theorem completed_phase : (s.completed).phase = .idle := rfl
@[simp] theorem completed_idx : (s.completed).idx = s.idx := rfl
@[simp] theorem completed_latA : (s.completed).latA = s.latA := rfl
@[simp] theorem completed_latL : (s.completed).latL = s.latL := rfl
@[simp] theorem completed_status : (s.completed).status = statusCompleted s.status := rfl
@[simp] theorem completed_bufAddr : (s.completed).bufAddr = s.bufAddr := rfl
@[simp] theorem completed_bufLen : (s.completed).bufLen = s.bufLen := rfl
@[simp] theorem completed_mem : (s.completed).mem = s.mem := rfl
@[simp] theorem completed_nonRam : (s.completed).nonRam = s.nonRam := rfl
@[simp] theorem completed_script : (s.completed).script = s.script := rfl
@[simp] theorem completed_responses : (s.completed).responses = s.responses := rfl
@[simp] theorem completed_resets : (s.completed).resets = s.resets := rfl

end Completed

section LatchA

variable (s : State)

@[simp] theorem latchA_k : (s.latchA).k = s.k := rfl
@[simp] theorem latchA_v0 : (s.latchA).v0 = s.v0 := rfl
@[simp] theorem latchA_v1 : (s.latchA).v1 = s.v1 := rfl
@[simp] theorem latchA_sum : (s.latchA).sum = s.sum := rfl
@[simp] theorem latchA_rnd : (s.latchA).rnd = s.rnd := rfl
@[simp] theorem latchA_op : (s.latchA).op = s.op := rfl
@[simp] theorem latchA_phase : (s.latchA).phase = s.phase := rfl
@[simp] theorem latchA_idx : (s.latchA).idx = s.idx := rfl
@[simp] theorem latchA_latA : (s.latchA).latA = s.bufAddr := rfl
@[simp] theorem latchA_latL : (s.latchA).latL = s.latL := rfl
@[simp] theorem latchA_status : (s.latchA).status = s.status := rfl
@[simp] theorem latchA_bufAddr : (s.latchA).bufAddr = s.bufAddr := rfl
@[simp] theorem latchA_bufLen : (s.latchA).bufLen = s.bufLen := rfl
@[simp] theorem latchA_mem : (s.latchA).mem = s.mem := rfl
@[simp] theorem latchA_nonRam : (s.latchA).nonRam = s.nonRam := rfl
@[simp] theorem latchA_script : (s.latchA).script = s.script := rfl
@[simp] theorem latchA_responses : (s.latchA).responses = s.responses := rfl
@[simp] theorem latchA_resets : (s.latchA).resets = s.resets := rfl

end LatchA

section LatchAL

variable (s : State)

@[simp] theorem latchAL_k : (s.latchAL).k = s.k := rfl
@[simp] theorem latchAL_v0 : (s.latchAL).v0 = s.v0 := rfl
@[simp] theorem latchAL_v1 : (s.latchAL).v1 = s.v1 := rfl
@[simp] theorem latchAL_sum : (s.latchAL).sum = s.sum := rfl
@[simp] theorem latchAL_rnd : (s.latchAL).rnd = s.rnd := rfl
@[simp] theorem latchAL_op : (s.latchAL).op = s.op := rfl
@[simp] theorem latchAL_phase : (s.latchAL).phase = s.phase := rfl
@[simp] theorem latchAL_idx : (s.latchAL).idx = s.idx := rfl
@[simp] theorem latchAL_latA : (s.latchAL).latA = s.bufAddr := rfl
@[simp] theorem latchAL_latL : (s.latchAL).latL = s.bufLen := rfl
@[simp] theorem latchAL_status : (s.latchAL).status = s.status := rfl
@[simp] theorem latchAL_bufAddr : (s.latchAL).bufAddr = s.bufAddr := rfl
@[simp] theorem latchAL_bufLen : (s.latchAL).bufLen = s.bufLen := rfl
@[simp] theorem latchAL_mem : (s.latchAL).mem = s.mem := rfl
@[simp] theorem latchAL_nonRam : (s.latchAL).nonRam = s.nonRam := rfl
@[simp] theorem latchAL_script : (s.latchAL).script = s.script := rfl
@[simp] theorem latchAL_responses : (s.latchAL).responses = s.responses := rfl
@[simp] theorem latchAL_resets : (s.latchAL).resets = s.resets := rfl

end LatchAL

section AtPhase

variable (s : State) (p : Phase)

@[simp] theorem atPhase_k : (s.atPhase p).k = s.k := rfl
@[simp] theorem atPhase_v0 : (s.atPhase p).v0 = s.v0 := rfl
@[simp] theorem atPhase_v1 : (s.atPhase p).v1 = s.v1 := rfl
@[simp] theorem atPhase_sum : (s.atPhase p).sum = s.sum := rfl
@[simp] theorem atPhase_rnd : (s.atPhase p).rnd = s.rnd := rfl
@[simp] theorem atPhase_op : (s.atPhase p).op = s.op := rfl
@[simp] theorem atPhase_phase : (s.atPhase p).phase = p := rfl
@[simp] theorem atPhase_idx : (s.atPhase p).idx = s.idx := rfl
@[simp] theorem atPhase_latA : (s.atPhase p).latA = s.latA := rfl
@[simp] theorem atPhase_latL : (s.atPhase p).latL = s.latL := rfl
@[simp] theorem atPhase_status : (s.atPhase p).status = s.status := rfl
@[simp] theorem atPhase_bufAddr : (s.atPhase p).bufAddr = s.bufAddr := rfl
@[simp] theorem atPhase_bufLen : (s.atPhase p).bufLen = s.bufLen := rfl
@[simp] theorem atPhase_mem : (s.atPhase p).mem = s.mem := rfl
@[simp] theorem atPhase_nonRam : (s.atPhase p).nonRam = s.nonRam := rfl
@[simp] theorem atPhase_script : (s.atPhase p).script = s.script := rfl
@[simp] theorem atPhase_responses : (s.atPhase p).responses = s.responses := rfl
@[simp] theorem atPhase_resets : (s.atPhase p).resets = s.resets := rfl

end AtPhase

section AtIdx

variable (s : State) (i : Nat)

@[simp] theorem atIdx_k : (s.atIdx i).k = s.k := rfl
@[simp] theorem atIdx_v0 : (s.atIdx i).v0 = s.v0 := rfl
@[simp] theorem atIdx_v1 : (s.atIdx i).v1 = s.v1 := rfl
@[simp] theorem atIdx_sum : (s.atIdx i).sum = s.sum := rfl
@[simp] theorem atIdx_rnd : (s.atIdx i).rnd = s.rnd := rfl
@[simp] theorem atIdx_op : (s.atIdx i).op = s.op := rfl
@[simp] theorem atIdx_phase : (s.atIdx i).phase = s.phase := rfl
@[simp] theorem atIdx_idx : (s.atIdx i).idx = i := rfl
@[simp] theorem atIdx_latA : (s.atIdx i).latA = s.latA := rfl
@[simp] theorem atIdx_latL : (s.atIdx i).latL = s.latL := rfl
@[simp] theorem atIdx_status : (s.atIdx i).status = s.status := rfl
@[simp] theorem atIdx_bufAddr : (s.atIdx i).bufAddr = s.bufAddr := rfl
@[simp] theorem atIdx_bufLen : (s.atIdx i).bufLen = s.bufLen := rfl
@[simp] theorem atIdx_mem : (s.atIdx i).mem = s.mem := rfl
@[simp] theorem atIdx_nonRam : (s.atIdx i).nonRam = s.nonRam := rfl
@[simp] theorem atIdx_script : (s.atIdx i).script = s.script := rfl
@[simp] theorem atIdx_responses : (s.atIdx i).responses = s.responses := rfl
@[simp] theorem atIdx_resets : (s.atIdx i).resets = s.resets := rfl

end AtIdx

section IllegalCommand

variable (s : State)

@[simp] theorem illegalCommand_k : (s.illegalCommand).k = s.k := rfl
@[simp] theorem illegalCommand_v0 : (s.illegalCommand).v0 = s.v0 := rfl
@[simp] theorem illegalCommand_v1 : (s.illegalCommand).v1 = s.v1 := rfl
@[simp] theorem illegalCommand_sum : (s.illegalCommand).sum = s.sum := rfl
@[simp] theorem illegalCommand_rnd : (s.illegalCommand).rnd = s.rnd := rfl
@[simp] theorem illegalCommand_op : (s.illegalCommand).op = s.op := rfl
@[simp] theorem illegalCommand_phase : (s.illegalCommand).phase = s.phase := rfl
@[simp] theorem illegalCommand_idx : (s.illegalCommand).idx = s.idx := rfl
@[simp] theorem illegalCommand_latA : (s.illegalCommand).latA = s.latA := rfl
@[simp] theorem illegalCommand_latL : (s.illegalCommand).latL = s.latL := rfl
@[simp] theorem illegalCommand_status : (s.illegalCommand).status = statusIllegal s.status := rfl
@[simp] theorem illegalCommand_bufAddr : (s.illegalCommand).bufAddr = s.bufAddr := rfl
@[simp] theorem illegalCommand_bufLen : (s.illegalCommand).bufLen = s.bufLen := rfl
@[simp] theorem illegalCommand_mem : (s.illegalCommand).mem = s.mem := rfl
@[simp] theorem illegalCommand_nonRam : (s.illegalCommand).nonRam = s.nonRam := rfl
@[simp] theorem illegalCommand_script : (s.illegalCommand).script = s.script := rfl
@[simp] theorem illegalCommand_responses : (s.illegalCommand).responses = s.responses := rfl
@[simp] theorem illegalCommand_resets : (s.illegalCommand).resets = s.resets := rfl

end IllegalCommand

section Respond

variable (s : State) (r : Response)

@[simp] theorem respond_k : (s.respond r).k = s.k := rfl
@[simp] theorem respond_v0 : (s.respond r).v0 = s.v0 := rfl
@[simp] theorem respond_v1 : (s.respond r).v1 = s.v1 := rfl
@[simp] theorem respond_sum : (s.respond r).sum = s.sum := rfl
@[simp] theorem respond_rnd : (s.respond r).rnd = s.rnd := rfl
@[simp] theorem respond_op : (s.respond r).op = s.op := rfl
@[simp] theorem respond_phase : (s.respond r).phase = s.phase := rfl
@[simp] theorem respond_idx : (s.respond r).idx = s.idx := rfl
@[simp] theorem respond_latA : (s.respond r).latA = s.latA := rfl
@[simp] theorem respond_latL : (s.respond r).latL = s.latL := rfl
@[simp] theorem respond_status : (s.respond r).status = s.status := rfl
@[simp] theorem respond_bufAddr : (s.respond r).bufAddr = s.bufAddr := rfl
@[simp] theorem respond_bufLen : (s.respond r).bufLen = s.bufLen := rfl
@[simp] theorem respond_mem : (s.respond r).mem = s.mem := rfl
@[simp] theorem respond_nonRam : (s.respond r).nonRam = s.nonRam := rfl
@[simp] theorem respond_script : (s.respond r).script = s.script := rfl
@[simp] theorem respond_responses : (s.respond r).responses = s.responses ++ [r] := rfl
@[simp] theorem respond_resets : (s.respond r).resets = s.resets := rfl

end Respond

section ResetBlock

variable (cfg : Config) (s : State)

@[simp] theorem resetBlock_k : (s.resetBlock cfg).k = s.k := rfl
@[simp] theorem resetBlock_v0 : (s.resetBlock cfg).v0 = (Config.unspecified s.resets).v0 := rfl
@[simp] theorem resetBlock_v1 : (s.resetBlock cfg).v1 = (Config.unspecified s.resets).v1 := rfl
@[simp] theorem resetBlock_sum : (s.resetBlock cfg).sum = (Config.unspecified s.resets).sum := rfl
@[simp] theorem resetBlock_rnd : (s.resetBlock cfg).rnd = (Config.unspecified s.resets).rnd := rfl
@[simp] theorem resetBlock_op : (s.resetBlock cfg).op = (Config.unspecified s.resets).op := rfl
@[simp] theorem resetBlock_phase : (s.resetBlock cfg).phase = .idle := rfl
@[simp] theorem resetBlock_idx : (s.resetBlock cfg).idx = (Config.unspecified s.resets).idx := rfl
@[simp] theorem resetBlock_latA : (s.resetBlock cfg).latA = (Config.unspecified s.resets).latA := rfl
@[simp] theorem resetBlock_latL : (s.resetBlock cfg).latL = (Config.unspecified s.resets).latL := rfl
@[simp] theorem resetBlock_status : (s.resetBlock cfg).status = 0x00000000#32 := rfl
@[simp] theorem resetBlock_bufAddr : (s.resetBlock cfg).bufAddr = 0x00000000#32 := rfl
@[simp] theorem resetBlock_bufLen : (s.resetBlock cfg).bufLen = 0x00000000#32 := rfl
@[simp] theorem resetBlock_mem : (s.resetBlock cfg).mem = Memory.loseBytes s.resets s.mem s.latA.toNat (s.busyLength cfg) := rfl
@[simp] theorem resetBlock_nonRam : (s.resetBlock cfg).nonRam = s.nonRam := rfl
@[simp] theorem resetBlock_script : (s.resetBlock cfg).script = s.script := rfl
@[simp] theorem resetBlock_responses : (s.resetBlock cfg).responses = s.responses := rfl
@[simp] theorem resetBlock_resets : (s.resetBlock cfg).resets = s.resets + 1 := rfl

end ResetBlock

end Sys2Proof.Machine.State
end

