-- ==== Sys2Proof/Laws/Status.lean ====
section
/-! SUPPORT. What each update of `STATUS` leaves in its bits. -/

namespace Sys2Proof.Machine

/-- The one lemma about `putBit`: it decides bit `i` and keeps every other. -/
theorem getLsbD_putBit (w : Word) (i : Nat) (b : Bool) (j : Nat) :
    (putBit w i b).getLsbD j = if j = i then (b && decide (j < 32)) else w.getLsbD j := by
  by_cases hj : j < 32
  · rcases Nat.lt_trichotomy j i with h | h | h
    · cases b <;> simp [putBit, h, hj, h.ne]
    · subst h
      cases b <;> simp [putBit, hj]
    · have hne : ¬ j = i := by omega
      have hz : ¬ j - i = 0 := by omega
      cases b <;> simp [putBit, hj, hne, hz]
  · have h32 : 32 ≤ j := by omega
    have hw : ∀ v : Word, v.getLsbD j = false := fun v => BitVec.getLsbD_of_ge v j h32
    simp [hw, hj]

section Bits

variable (w : Word)

@[simp] theorem statusStarted_busy : (statusStarted w).getLsbD busyBit = true := by
  simp only [statusStarted, getLsbD_putBit, busyBit, doneBit]; simp
@[simp] theorem statusStarted_done : (statusStarted w).getLsbD doneBit = false := by
  simp only [statusStarted, getLsbD_putBit, busyBit, doneBit]; simp
@[simp] theorem statusStarted_ill : (statusStarted w).getLsbD illBit = w.getLsbD illBit := by
  simp only [statusStarted, getLsbD_putBit, busyBit, doneBit, illBit]; simp
@[simp] theorem statusCompleted_busy : (statusCompleted w).getLsbD busyBit = false := by
  simp only [statusCompleted, getLsbD_putBit, busyBit, doneBit]; simp
@[simp] theorem statusCompleted_done : (statusCompleted w).getLsbD doneBit = true := by
  simp only [statusCompleted, getLsbD_putBit, busyBit, doneBit]; simp
@[simp] theorem statusCompleted_ill : (statusCompleted w).getLsbD illBit = w.getLsbD illBit := by
  simp only [statusCompleted, getLsbD_putBit, busyBit, doneBit, illBit]; simp
@[simp] theorem statusIllegal_busy : (statusIllegal w).getLsbD busyBit = w.getLsbD busyBit := by
  simp only [statusIllegal, getLsbD_putBit, busyBit, doneBit, illBit]; simp
@[simp] theorem statusIllegal_done : (statusIllegal w).getLsbD doneBit = false := by
  simp only [statusIllegal, getLsbD_putBit, doneBit, illBit]; simp
@[simp] theorem statusIllegal_ill : (statusIllegal w).getLsbD illBit = true := by
  simp only [statusIllegal, getLsbD_putBit, doneBit, illBit]; simp

/-- The bits above `ILL` are kept by every update (R30). -/
theorem status_reserved_kept (j : Nat) (hj : illBit < j) :
    (statusStarted w).getLsbD j = w.getLsbD j ∧ (statusCompleted w).getLsbD j = w.getLsbD j ∧
      (statusIllegal w).getLsbD j = w.getLsbD j := by
  have h2 : 2 < j := hj
  have h0 : ¬ j = 0 := by omega
  have h1 : ¬ j = 1 := by omega
  have h3 : ¬ j = 2 := by omega
  simp [statusStarted, statusCompleted, statusIllegal, getLsbD_putBit, busyBit, doneBit, illBit, h0, h1, h3]

end Bits

/-- A word is below 8 exactly when its bits 31:3 are zero. -/
theorem toNat_lt_eight_iff (w : Word) : w.toNat < 8 ↔ ∀ j, illBit < j → w.getLsbD j = false := by
  constructor
  · intro h j hj
    have hj' : 3 ≤ j := hj
    apply Nat.testBit_lt_two_pow
    exact Nat.lt_of_lt_of_le h (Nat.pow_le_pow_right (n := 2) (by decide) hj')
  · intro h
    apply Nat.lt_pow_two_of_testBit (n := 3)
    intro j hj
    exact h j (by simp only [illBit]; omega)

/-- Every update keeps the reserved bits zero. -/
theorem status_updates_lt_eight {w : Word} (h : w.toNat < 8) :
    (statusStarted w).toNat < 8 ∧ (statusCompleted w).toNat < 8 ∧ (statusIllegal w).toNat < 8 := by
  simp only [toNat_lt_eight_iff] at h ⊢
  refine ⟨fun j hj => ?_, fun j hj => ?_, fun j hj => ?_⟩
  · rw [(status_reserved_kept w j hj).1, h j hj]
  · rw [(status_reserved_kept w j hj).2.1, h j hj]
  · rw [(status_reserved_kept w j hj).2.2, h j hj]

section StateBits

variable (i : Instr) (s : State)

@[simp] theorem busy_started : (s.started i).busy = true := statusStarted_busy _
@[simp] theorem done_started : (s.started i).done = false := statusStarted_done _
@[simp] theorem ill_started : (s.started i).ill = s.ill := statusStarted_ill _
@[simp] theorem busy_completed : s.completed.busy = false := statusCompleted_busy _
@[simp] theorem done_completed : s.completed.done = true := statusCompleted_done _
@[simp] theorem ill_completed : s.completed.ill = s.ill := statusCompleted_ill _
@[simp] theorem busy_latchA : s.latchA.busy = s.busy := rfl
@[simp] theorem busy_latchAL : s.latchAL.busy = s.busy := rfl
@[simp] theorem busy_atPhase (p : Phase) : (s.atPhase p).busy = s.busy := rfl
@[simp] theorem done_atPhase (p : Phase) : (s.atPhase p).done = s.done := rfl
@[simp] theorem ill_atPhase (p : Phase) : (s.atPhase p).ill = s.ill := rfl
@[simp] theorem busy_atIdx (n : Nat) : (s.atIdx n).busy = s.busy := rfl
@[simp] theorem done_atIdx (n : Nat) : (s.atIdx n).done = s.done := rfl
@[simp] theorem ill_atIdx (n : Nat) : (s.atIdx n).ill = s.ill := rfl
@[simp] theorem busy_illegalCommand : s.illegalCommand.busy = s.busy := statusIllegal_busy _
@[simp] theorem done_illegalCommand : s.illegalCommand.done = false := statusIllegal_done _
@[simp] theorem ill_illegalCommand : s.illegalCommand.ill = true := statusIllegal_ill _

end StateBits

end Sys2Proof.Machine
end

