-- ==== Sys2Proof/Laws/Engine.lean ====
section
/-! SUPPORT. What the engine's operations do, said once: their frame, and memory after a chunk operation as one write of
the byte string the chunk operation computes. -/

namespace Sys2Proof.Machine

/-- `BytesOfWord` undoes `WordOfBytes` (R42). -/
theorem bytesOfWord_wordOfBytes (bo : ByteOrder) (b0 b1 b2 b3 : Byte) :
    bytesOfWord bo (wordOfBytes bo b0 b1 b2 b3) = [b0, b1, b2, b3] := by
  have h0 := b0.isLt; have h1 := b1.isLt; have h2 := b2.isLt; have h3 := b3.isLt
  cases bo <;>
  · simp only [bytesOfWord, wordOfBytes, List.cons.injEq, and_true]
    refine ⟨?_, ?_, ?_, ?_⟩ <;>
    · apply BitVec.eq_of_toNat_eq
      simp only [BitVec.extractLsb'_toNat, BitVec.toNat_ofNat, Nat.shiftRight_eq_div_pow]
      omega

@[simp] theorem length_bytesOfWord (bo : ByteOrder) (w : Word) : (bytesOfWord bo w).length = 4 := by
  cases bo <;> rfl

/-- `WordOfBytes` undoes `BytesOfWord` (R42). -/
theorem wordAt_bytesOfWord (bo : ByteOrder) (w : Word) (rest : List Byte) :
    wordAt bo (bytesOfWord bo w ++ rest) 0 = w := by
  have h := w.isLt
  cases bo <;>
  · simp only [wordAt, bytesOfWord, wordOfBytes, List.cons_append, List.getD_cons_zero, List.getD_cons_succ]
    apply BitVec.eq_of_toNat_eq
    simp only [BitVec.extractLsb'_toNat, BitVec.toNat_ofNat, Nat.shiftRight_eq_div_pow]
    omega

namespace Memory

theorem memWrite_append (m : Memory) (a : Nat) (xs ys : List Byte) :
    memWrite m a (xs ++ ys) = memWrite (memWrite m a xs) (a + xs.length) ys := by
  induction xs generalizing m a with
  | nil => rfl
  | cons x xs ih =>
    rw [List.cons_append, memWrite, memWrite, ih, List.length_cons, show a + 1 + xs.length = a + (xs.length + 1) by omega]

/-- A read of bytes a write did not touch. -/
theorem memRead_memWrite_disjoint {m : Memory} (h : wf m = true) {a b n : Nat} {bs : List Byte}
    (hd : b + n ≤ a ∨ a + bs.length ≤ b) : memRead (memWrite m a bs) b n = memRead m b n :=
  memRead_congr fun i hi => by rw [read_memWrite h, if_neg (by omega)]

/-- A read of exactly the bytes written. -/
theorem memRead_memWrite_same {m : Memory} (h : wf m = true) (a : Nat) (bs : List Byte) :
    memRead (memWrite m a bs) a bs.length = bs := by
  apply List.ext_getElem (by simp)
  intro i h1 h2
  have := getD_memRead (memWrite m a bs) a bs.length i (by simpa using h1) 0
  rw [read_memWrite h, if_pos (by omega), Nat.add_sub_cancel_left, List.getD_eq_getElem _ _ h1,
    List.getD_eq_getElem _ _ h2] at this
  exact this

/-- `LoadWord` reads the word of the bytes there (R43). -/
theorem wordAt_memRead (cfg : Config) (m : Memory) (a n i : Nat) (hi : i + 4 ≤ n) :
    wordAt cfg.byteOrder (memRead m a n) i = loadWord cfg m (a + i) := by
  simp only [wordAt, loadWord]
  rw [getD_memRead m a n i (by omega), getD_memRead m a n (i + 1) (by omega), getD_memRead m a n (i + 2) (by omega),
    getD_memRead m a n (i + 3) (by omega)]
  rfl

end Memory

/-- What every engine action leaves alone, every list of them leaves alone. -/
theorem runOps_keeps {α : Type} (f : State → α) (cfg : Config) (h : ∀ s op, f (EngineOp.run cfg s op) = f s)
    (ops : List EngineOp) (s : State) : f (runOps cfg ops s) = f s := by
  induction ops generalizing s with
  | nil => rfl
  | cons op ops ih => exact (ih _).trans (h s op)

theorem runOps_append (cfg : Config) (xs ys : List EngineOp) (s : State) :
    runOps cfg (xs ++ ys) s = runOps cfg ys (runOps cfg xs s) := List.foldl_append ..

section Frame

variable (cfg : Config) (ops : List EngineOp) (d : Dir) (a : Nat) (s : State)

@[simp] theorem runOps_k : (runOps cfg ops s).k = s.k :=
  runOps_keeps (·.k) cfg (fun s op => by cases op <;> rfl) ops s
@[simp] theorem runOps_op : (runOps cfg ops s).op = s.op :=
  runOps_keeps (·.op) cfg (fun s op => by cases op <;> rfl) ops s
@[simp] theorem runOps_phase : (runOps cfg ops s).phase = s.phase :=
  runOps_keeps (·.phase) cfg (fun s op => by cases op <;> rfl) ops s
@[simp] theorem runOps_idx : (runOps cfg ops s).idx = s.idx :=
  runOps_keeps (·.idx) cfg (fun s op => by cases op <;> rfl) ops s
@[simp] theorem runOps_latA : (runOps cfg ops s).latA = s.latA :=
  runOps_keeps (·.latA) cfg (fun s op => by cases op <;> rfl) ops s
@[simp] theorem runOps_latL : (runOps cfg ops s).latL = s.latL :=
  runOps_keeps (·.latL) cfg (fun s op => by cases op <;> rfl) ops s
@[simp] theorem runOps_status : (runOps cfg ops s).status = s.status :=
  runOps_keeps (·.status) cfg (fun s op => by cases op <;> rfl) ops s
@[simp] theorem runOps_bufAddr : (runOps cfg ops s).bufAddr = s.bufAddr :=
  runOps_keeps (·.bufAddr) cfg (fun s op => by cases op <;> rfl) ops s
@[simp] theorem runOps_bufLen : (runOps cfg ops s).bufLen = s.bufLen :=
  runOps_keeps (·.bufLen) cfg (fun s op => by cases op <;> rfl) ops s
@[simp] theorem runOps_nonRam : (runOps cfg ops s).nonRam = s.nonRam :=
  runOps_keeps (·.nonRam) cfg (fun s op => by cases op <;> rfl) ops s
@[simp] theorem runOps_script : (runOps cfg ops s).script = s.script :=
  runOps_keeps (·.script) cfg (fun s op => by cases op <;> rfl) ops s
@[simp] theorem runOps_responses : (runOps cfg ops s).responses = s.responses :=
  runOps_keeps (·.responses) cfg (fun s op => by cases op <;> rfl) ops s
@[simp] theorem runOps_resets : (runOps cfg ops s).resets = s.resets :=
  runOps_keeps (·.resets) cfg (fun s op => by cases op <;> rfl) ops s
@[simp] theorem chunkOp_k : (chunkOp cfg d a s).k = s.k := runOps_k ..
@[simp] theorem chunkOp_op : (chunkOp cfg d a s).op = s.op := runOps_op ..
@[simp] theorem chunkOp_phase : (chunkOp cfg d a s).phase = s.phase := runOps_phase ..
@[simp] theorem chunkOp_idx : (chunkOp cfg d a s).idx = s.idx := runOps_idx ..
@[simp] theorem chunkOp_latA : (chunkOp cfg d a s).latA = s.latA := runOps_latA ..
@[simp] theorem chunkOp_latL : (chunkOp cfg d a s).latL = s.latL := runOps_latL ..
@[simp] theorem chunkOp_status : (chunkOp cfg d a s).status = s.status := runOps_status ..
@[simp] theorem chunkOp_bufAddr : (chunkOp cfg d a s).bufAddr = s.bufAddr := runOps_bufAddr ..
@[simp] theorem chunkOp_bufLen : (chunkOp cfg d a s).bufLen = s.bufLen := runOps_bufLen ..
@[simp] theorem chunkOp_nonRam : (chunkOp cfg d a s).nonRam = s.nonRam := runOps_nonRam ..
@[simp] theorem chunkOp_script : (chunkOp cfg d a s).script = s.script := runOps_script ..
@[simp] theorem chunkOp_responses : (chunkOp cfg d a s).responses = s.responses := runOps_responses ..
@[simp] theorem chunkOp_resets : (chunkOp cfg d a s).resets = s.resets := runOps_resets ..

@[simp] theorem chunkOp_busy : (chunkOp cfg d a s).busy = s.busy := by simp [State.busy]
@[simp] theorem chunkOp_done : (chunkOp cfg d a s).done = s.done := by simp [State.done]
@[simp] theorem chunkOp_ill : (chunkOp cfg d a s).ill = s.ill := by simp [State.ill]

end Frame

@[simp] theorem length_blockString (cfg : Config) (d : Dir) (k : Key) (bs : List Byte) :
    (blockString cfg d k bs).length = Config.BLOCK_BYTES := by
  simp [blockString, Config.BLOCK_BYTES]

theorem length_mapPieces (c : Nat) (f : List Byte → List Byte) (hf : ∀ bs, (f bs).length = c) (n : Nat)
    (bs : List Byte) : (mapPieces c f n bs).length = n * c := by
  induction n generalizing bs with
  | zero => simp [mapPieces]
  | succ n ih => rw [mapPieces, List.length_append, hf, ih, Nat.succ_mul, Nat.add_comm]

theorem length_chunkString (cfg : Config) (d : Dir) (k : Key) (bs : List Byte) :
    (chunkString cfg d k bs).length = cfg.subblocks * Config.BLOCK_BYTES :=
  length_mapPieces _ _ (length_blockString cfg d k) _ _

/-- The loop body of R87 and R88: memory takes the transformed 8 bytes, the registers the transform's values. -/
theorem runOps_blockOps (cfg : Config) (d : Dir) (a : Nat) (s : State) :
    runOps cfg (blockOps d a) s =
      let r := blockTransform cfg d s.k (Memory.loadWord cfg s.mem a) (Memory.loadWord cfg s.mem (a + 4))
      { s with
        v0 := r.v0, v1 := r.v1, sum := r.sum, rnd := Config.ROUNDS,
        mem := Memory.memWrite s.mem a (blockString cfg d s.k (Memory.memRead s.mem a Config.BLOCK_BYTES)) } := by
  simp only [runOps, blockOps, List.foldl_cons, List.foldl_nil, EngineOp.run, Memory.storeWord, blockString,
    Config.BLOCK_BYTES, Memory.memWrite_append, length_bytesOfWord,
    Memory.wordAt_memRead cfg s.mem a 8 0 (by omega), Memory.wordAt_memRead cfg s.mem a 8 4 (by omega), Nat.add_zero]

/-- Memory after the first `n` sub-blocks: one write of the transformed bytes. -/
theorem runOps_subblockOps_mem (cfg : Config) (d : Dir) (n a : Nat) (s : State) (h : Memory.wf s.mem = true) :
    (runOps cfg (subblockOps d n a) s).mem =
      Memory.memWrite s.mem a (mapPieces Config.BLOCK_BYTES (blockString cfg d s.k) n
        (Memory.memRead s.mem a (n * Config.BLOCK_BYTES))) := by
  induction n generalizing a s with
  | zero => rfl
  | succ n ih =>
    rw [subblockOps, runOps_append, runOps_blockOps]
    simp only
    rw [ih (a + Config.BLOCK_BYTES)]
    · simp only
      rw [Memory.memRead_memWrite_disjoint h (by right; simp), mapPieces, Memory.memWrite_append, length_blockString,
        show (n + 1) * Config.BLOCK_BYTES = Config.BLOCK_BYTES + n * Config.BLOCK_BYTES by ring, Memory.memRead_add]
      have hl : (Memory.memRead s.mem a Config.BLOCK_BYTES).length = Config.BLOCK_BYTES := by simp
      rw [List.take_left' hl, List.drop_left' hl]
    · exact Memory.wf_memWrite h _ _

/-- The one lemma about a chunk operation's memory (R87, R88): `CHUNK_BYTES` bytes at `a` are replaced by the string the
chunk operation computes from them, and nothing else is written. -/
theorem chunkOp_mem (cfg : Config) (d : Dir) (a : Nat) (s : State) (h : Memory.wf s.mem = true) :
    (chunkOp cfg d a s).mem =
      Memory.memWrite s.mem a
        (chunkString cfg d s.k (Memory.memRead s.mem a (cfg.subblocks * Config.BLOCK_BYTES))) :=
  runOps_subblockOps_mem cfg d cfg.subblocks a s h

/-- A chunk operation keeps the canonical form. -/
theorem wf_chunkOp (cfg : Config) (d : Dir) (a : Nat) (s : State) (h : Memory.wf s.mem = true) :
    Memory.wf (chunkOp cfg d a s).mem = true := by
  rw [chunkOp_mem cfg d a s h]; exact Memory.wf_memWrite h _ _

/-- A chunk operation inside the data space lists no address outside it. -/
theorem inSpace_chunkOp (cfg : Config) (d : Dir) (a : Nat) (s : State) (h : Memory.wf s.mem = true)
    (hs : Memory.inSpace s.mem = true) (ha : a + cfg.subblocks * Config.BLOCK_BYTES ≤ Config.ADDR_SPACE) :
    Memory.inSpace (chunkOp cfg d a s).mem = true := by
  rw [chunkOp_mem cfg d a s h]
  exact Memory.inSpace_memWrite hs (by rw [length_chunkString]; exact ha)

/-- A chunk operation changes no byte outside its chunk (R89). -/
theorem read_chunkOp_outside (cfg : Config) (d : Dir) (a : Nat) (s : State) (h : Memory.wf s.mem = true) (b : Nat)
    (hb : b < a ∨ a + cfg.subblocks * Config.BLOCK_BYTES ≤ b) :
    Memory.read (chunkOp cfg d a s).mem b = Memory.read s.mem b := by
  rw [chunkOp_mem cfg d a s h, Memory.read_memWrite h, length_chunkString, if_neg (by omega)]

/-- The transforms leave `RND` at `ROUNDS` (R83, R84). -/
theorem runOps_subblockOps_rnd (cfg : Config) (d : Dir) (n a : Nat) (s : State) (hn : 0 < n) :
    (runOps cfg (subblockOps d n a) s).rnd = Config.ROUNDS := by
  induction n generalizing a s with
  | zero => omega
  | succ n ih =>
    rw [subblockOps, runOps_append, runOps_blockOps]
    cases n with
    | zero => rfl
    | succ n => exact ih _ _ (by omega)

/-- The sub-blocks of this hardware (R11). -/
@[simp] theorem subblocks_hw : hw.subblocks = 2 := rfl

@[simp] theorem chunkBytes_hw : hw.chunkBytes = 16 := rfl

end Sys2Proof.Machine
end

