-- ==== Sys2Proof/Laws/Commands.lean ====
section
/-! SUPPORT. What launching a command and running its chunk operations can do, said once. -/

namespace Sys2Proof.Machine

/-- A command launches into a next state exactly when no command is running and its range is in order. -/
theorem launch_next_iff (cfg : Config) (i : Instr) (run : State → State) (s t : State) :
    launch cfg i run s = .next t ↔ s.busy = false ∧ RangeOk cfg i s ∧ t = run s := by
  simp only [launch, RangeOk]
  cases hb : s.busy
  · by_cases hr : Config.ADDR_SPACE < s.bufAddr.toNat + rangeLength cfg i s.bufLen.toNat
    · simp [hr, Nat.not_le.mpr hr]
    · cases ho : ordinary s.nonRam s.bufAddr.toNat (rangeLength cfg i s.bufLen.toNat)
      · simp [hr]
      · simp [hr, Nat.not_lt.mp hr, eq_comm]
  · simp

/-- A command never faults, and the three reasons it can be refused (R46, R47, R142). -/
theorem launch_cases (cfg : Config) (i : Instr) (run : State → State) (s : State) :
    (s.busy = true ∧ launch cfg i run s = .refused .writeWhileBusy) ∨
    (s.busy = false ∧ Config.ADDR_SPACE < s.bufAddr.toNat + rangeLength cfg i s.bufLen.toNat ∧
      launch cfg i run s = .refused .rangeViolation) ∨
    (s.busy = false ∧ s.bufAddr.toNat + rangeLength cfg i s.bufLen.toNat ≤ Config.ADDR_SPACE ∧
      ordinary s.nonRam s.bufAddr.toNat (rangeLength cfg i s.bufLen.toNat) = false ∧
      launch cfg i run s = .refused .notOrdinaryMemory) ∨
    (s.busy = false ∧ RangeOk cfg i s ∧ launch cfg i run s = .next (run s)) := by
  simp only [launch, RangeOk]
  cases hb : s.busy
  · by_cases hr : Config.ADDR_SPACE < s.bufAddr.toNat + rangeLength cfg i s.bufLen.toNat
    · simp [hr]
    · cases ho : ordinary s.nonRam s.bufAddr.toNat (rangeLength cfg i s.bufLen.toNat)
      · simp [hr, Nat.not_lt.mp hr]
      · simp [hr, Nat.not_lt.mp hr]
  · simp

/-- `exec` launches the command's whole run: its arms differ in the command alone. -/
theorem exec_eq_launch (i : Instr) (s : State) : exec i s = launch hw i (runCommand hw i) s := by
  cases i <;> rfl

/-- `exec` answers a next state exactly when no command is running and the range is in order. -/
theorem exec_next_iff (i : Instr) (s t : State) :
    exec i s = .next t ↔ s.busy = false ∧ RangeOk hw i s ∧ t = runCommand hw i s := by
  rw [exec_eq_launch, launch_next_iff]

section AlignedPass

variable (cfg : Config) (d : Dir) (a n : Nat) (s : State)

/-- What the aligned pass's chunk operations and bookkeeping leave alone, the whole pass leaves alone. -/
theorem alignedPass_keeps {α : Type} (f : State → α) (h : ∀ i s, f (alignedChunk cfg d a i s) = f s) :
    f (alignedPass cfg d a n s) = f s := by
  induction n with
  | zero => rfl
  | succ n ih => exact (h n _).trans ih

@[simp] theorem alignedPass_k : (alignedPass cfg d a n s).k = s.k :=
  alignedPass_keeps cfg d a n s (·.k) fun i s => by simp [alignedChunk]
@[simp] theorem alignedPass_op : (alignedPass cfg d a n s).op = s.op :=
  alignedPass_keeps cfg d a n s (·.op) fun i s => by simp [alignedChunk]
@[simp] theorem alignedPass_latA : (alignedPass cfg d a n s).latA = s.latA :=
  alignedPass_keeps cfg d a n s (·.latA) fun i s => by simp [alignedChunk]
@[simp] theorem alignedPass_latL : (alignedPass cfg d a n s).latL = s.latL :=
  alignedPass_keeps cfg d a n s (·.latL) fun i s => by simp [alignedChunk]
@[simp] theorem alignedPass_status : (alignedPass cfg d a n s).status = s.status :=
  alignedPass_keeps cfg d a n s (·.status) fun i s => by simp [alignedChunk]
@[simp] theorem alignedPass_bufAddr : (alignedPass cfg d a n s).bufAddr = s.bufAddr :=
  alignedPass_keeps cfg d a n s (·.bufAddr) fun i s => by simp [alignedChunk]
@[simp] theorem alignedPass_bufLen : (alignedPass cfg d a n s).bufLen = s.bufLen :=
  alignedPass_keeps cfg d a n s (·.bufLen) fun i s => by simp [alignedChunk]
@[simp] theorem alignedPass_nonRam : (alignedPass cfg d a n s).nonRam = s.nonRam :=
  alignedPass_keeps cfg d a n s (·.nonRam) fun i s => by simp [alignedChunk]
@[simp] theorem alignedPass_script : (alignedPass cfg d a n s).script = s.script :=
  alignedPass_keeps cfg d a n s (·.script) fun i s => by simp [alignedChunk]
@[simp] theorem alignedPass_responses : (alignedPass cfg d a n s).responses = s.responses :=
  alignedPass_keeps cfg d a n s (·.responses) fun i s => by simp [alignedChunk]
@[simp] theorem alignedPass_resets : (alignedPass cfg d a n s).resets = s.resets :=
  alignedPass_keeps cfg d a n s (·.resets) fun i s => by simp [alignedChunk]

@[simp] theorem alignedPass_busy : (alignedPass cfg d a n s).busy = s.busy := by simp [State.busy]
@[simp] theorem alignedPass_done : (alignedPass cfg d a n s).done = s.done := by simp [State.done]
@[simp] theorem alignedPass_ill : (alignedPass cfg d a n s).ill = s.ill := by simp [State.ill]

/-- After a pass over at least one chunk, `IDX` counts the chunks done and the phase is `ALIGNED` (R109). -/
theorem alignedPass_sequencer (hn : 0 < n) :
    (alignedPass cfg d a n s).idx = n ∧ (alignedPass cfg d a n s).phase = .aligned := by
  cases n with
  | zero => omega
  | succ n => simp [alignedPass, alignedChunk]

theorem wf_alignedPass (h : Memory.wf s.mem = true) : Memory.wf (alignedPass cfg d a n s).mem = true := by
  induction n with
  | zero => exact h
  | succ n ih => exact wf_chunkOp cfg d _ _ ih

end AlignedPass

section BufferRuns

variable (cfg : Config) (s : State)

/-- Below the no-op floor `ENCB` starts and completes (R101). -/
theorem runEncb_short (h : s.bufLen.toNat < cfg.chunkBytes) : runEncb cfg s = (s.started .encb).completed := by
  simp only [runEncb, if_pos h]

/-- Below the no-op floor `DECB` starts and completes (R101). -/
theorem runDecb_short (h : s.bufLen.toNat < cfg.chunkBytes) : runDecb cfg s = (s.started .decb).completed := by
  simp only [runDecb, if_pos h]

/-- The state in which `ENCB` begins its aligned pass (R109). -/
def encbLatched : State := ((s.started .encb).latchAL.atIdx 0).atPhase .aligned

/-- `ENCB` of at least a chunk: the aligned pass, then the window when there is one (R104). -/
theorem runEncb_long (h : cfg.chunkBytes ≤ s.bufLen.toNat) :
    runEncb cfg s =
      let s₁ := alignedPass cfg .fwd s.bufAddr.toNat (alignedChunks cfg s.bufLen.toNat) (encbLatched s)
      if tailPass cfg s.bufLen.toNat then
        (chunkOp cfg .fwd (windowAddr cfg s.bufAddr.toNat s.bufLen.toNat) (s₁.atPhase .tailLast)).completed
      else s₁.completed := by
  simp only [runEncb, if_neg (Nat.not_lt.mpr h), encbLatched]

/-- The state in which `DECB` begins its aligned pass: after the window, when there is one (R106, R109). -/
def decbWindowed : State :=
  ((if tailPass cfg s.bufLen.toNat then
      chunkOp cfg .inv (windowAddr cfg s.bufAddr.toNat s.bufLen.toNat) ((s.started .decb).latchAL.atPhase .tailFirst)
    else (s.started .decb).latchAL).atIdx 0).atPhase .aligned

/-- `DECB` of at least a chunk: the window when there is one, then the aligned pass (R106). -/
theorem runDecb_long (h : cfg.chunkBytes ≤ s.bufLen.toNat) :
    runDecb cfg s =
      (alignedPass cfg .inv s.bufAddr.toNat (alignedChunks cfg s.bufLen.toNat) (decbWindowed cfg s)).completed := by
  simp only [runDecb, if_neg (Nat.not_lt.mpr h), decbWindowed]

end BufferRuns

/-- The last piece of a string mapped piece by piece. -/
theorem mapPieces_succ_last (c : Nat) (f : List Byte → List Byte) (n : Nat) (bs : List Byte) :
    mapPieces c f (n + 1) bs = mapPieces c f n bs ++ f ((bs.drop (n * c)).take c) := by
  induction n generalizing bs with
  | zero => simp [mapPieces]
  | succ n ih =>
    rw [mapPieces, ih, mapPieces, List.append_assoc, List.drop_drop, show c + n * c = (n + 1) * c by ring]

/-- The pieces of a string past the `n`-th do not matter to the first `n`. -/
theorem mapPieces_append (c : Nat) (f : List Byte → List Byte) (n : Nat) (xs ys : List Byte) (h : xs.length = n * c) :
    mapPieces c f n (xs ++ ys) = mapPieces c f n xs := by
  induction n generalizing xs with
  | zero => rfl
  | succ n ih =>
    have hc : c ≤ xs.length := by rw [h, Nat.succ_mul]; omega
    rw [mapPieces, mapPieces, List.take_append_of_le_length hc, List.drop_append_of_le_length hc, ih]
    rw [List.length_drop, h, Nat.succ_mul]; omega

/-- Memory after one aligned chunk: the chunk operation's write, and no other. -/
theorem alignedChunk_mem (cfg : Config) (d : Dir) (a i : Nat) (s : State) (h : Memory.wf s.mem = true)
    (hc : cfg.subblocks * Config.BLOCK_BYTES = cfg.chunkBytes) :
    (alignedChunk cfg d a i s).mem =
      Memory.memWrite s.mem (a + i * cfg.chunkBytes)
        (chunkString cfg d s.k (Memory.memRead s.mem (a + i * cfg.chunkBytes) cfg.chunkBytes)) := by
  have := chunkOp_mem cfg d (a + i * cfg.chunkBytes) ((s.atPhase .aligned).atIdx i) h
  rwa [hc] at this

/-- Memory after the aligned pass: `n` chunks at `a` are replaced by what the chunk operation computes of each, and
nothing else is written (R104, R106). `CHUNK_BYTES` is a whole number of blocks. -/
theorem alignedPass_mem (cfg : Config) (d : Dir) (a n : Nat) (s : State) (h : Memory.wf s.mem = true)
    (hc : cfg.subblocks * Config.BLOCK_BYTES = cfg.chunkBytes) :
    (alignedPass cfg d a n s).mem =
      Memory.memWrite s.mem a
        (mapPieces cfg.chunkBytes (chunkString cfg d s.k) n (Memory.memRead s.mem a (n * cfg.chunkBytes))) := by
  have hlen : ∀ bs, (chunkString cfg d s.k bs).length = cfg.chunkBytes := fun bs => by rw [length_chunkString, hc]
  induction n with
  | zero => rfl
  | succ n ih =>
    have hp : (mapPieces cfg.chunkBytes (chunkString cfg d s.k) n
        (Memory.memRead s.mem a (n * cfg.chunkBytes))).length = n * cfg.chunkBytes := length_mapPieces _ _ hlen _ _
    rw [alignedPass, alignedChunk_mem cfg d a n _ (wf_alignedPass cfg d a n s h) hc, alignedPass_k, ih, Memory.memRead_memWrite_disjoint h (by right; rw [hp]), mapPieces_succ_last, Nat.succ_mul, Memory.memRead_add,
      Memory.memWrite_append, mapPieces_append _ _ _ _ _ (by simp), hp]
    congr 2
    rw [List.drop_left' (by simp), List.take_of_length_le (by simp)]

end Sys2Proof.Machine
end

