-- ==== Sys2Proof/Laws/PerInstr.lean ====
section
/-! SUPPORT. What holds of each command's encoding, one lemma per command. -/

namespace Sys2Proof.Laws.FieldsMatchMeaning

/-- The three fields of a command's word (R60) say what the command is: `RSV` is zero, `DIR` is 1 exactly for the
inverse direction, and `SCOPE` is 1 exactly for a command over the buffer (R61). -/
def Statement (i : Instr) : Prop :=
  (CommandFields.ofWord (encode i)).rsv = 0 ∧
    ((CommandFields.ofWord (encode i)).dir = 1 ↔ Machine.dirOf i = .inv) ∧
    ((CommandFields.ofWord (encode i)).scope = 1 ↔ Machine.scopeIsBuffer i = true)

theorem encc : Statement .encc := by simp only [Statement]; decide
theorem decc : Statement .decc := by simp only [Statement]; decide
theorem encb : Statement .encb := by simp only [Statement]; decide
theorem decb : Statement .decb := by simp only [Statement]; decide

end Sys2Proof.Laws.FieldsMatchMeaning
end

