-- ==== Sys2Proof/Laws/Step.lean ====
section
/-! SUPPORT. What a step can do, said once: the step by its script, the host's actions one by one, the micro-step by its
phase. -/

namespace Sys2Proof.Machine

/-- With no host action waiting the block moves on its own. -/
theorem step_nil {s : State} (h : s.script = []) : step s = microStep hw s := by simp [step, advance, h]

/-- With a host action waiting, the step is that action. -/
theorem step_cons {s : State} {a : HostAction} {rest : List HostAction} (h : s.script = a :: rest) :
    step s = hostAct hw a { s with script := rest } := by simp [step, advance, h]

/-- A write to `CMD` (R29, R141, R142, R145). -/
theorem hostAct_wr_cmd (cfg : Config) (w : Word) (s : State) : hostAct cfg (.wr .cmd w) s = writeCmd w s := rfl

/-- What a write to `CMD` can do. -/
theorem writeCmd_cases (w : Word) (s : State) :
    (s.busy = true ∧ writeCmd w s = .refused .writeWhileBusy) ∨
    (s.busy = false ∧ ∃ e, decode w = .error e ∧ writeCmd w s = .next s.illegalCommand) ∨
    (s.busy = false ∧ ∃ i, decode w = .ok i ∧ writeCmd w s = exec i s) := by
  cases hb : s.busy
  · cases hd : decode w with
    | error e => exact .inr (.inl ⟨rfl, e, rfl, by simp [writeCmd, hb, hd]⟩)
    | ok i => exact .inr (.inr ⟨rfl, i, rfl, by simp [writeCmd, hb, hd]⟩)
  · exact .inl ⟨rfl, by simp [writeCmd, hb]⟩

/-- What a register write can do when it answers a next state. -/
theorem writeRegister_next {offset : Nat} {w : Word} {s t : State} (h : writeRegister offset w s = .next t) :
    (offset = Reg.cmd.offset ∧ s.busy = false ∧
      ((∃ e, decode w = .error e ∧ t = s.illegalCommand) ∨
        ∃ i, decode w = .ok i ∧ RangeOk hw i s ∧ t = runCommand hw i s)) ∨
    (offset = Reg.bufAddr.offset ∧ s.busy = false ∧ t = { s with bufAddr := w }) ∨
    (offset = Reg.bufLen.offset ∧ s.busy = false ∧ t = { s with bufLen := w }) ∨
    (¬ guardedOffset offset ∧ t = s) := by
  unfold writeRegister at h
  split at h
  · next ho =>
    obtain ⟨_, hw⟩ | ⟨hb, e, hd, hw⟩ | ⟨hb, i, hd, hw⟩ := writeCmd_cases w s <;> rw [hw] at h
    · cases h
    · cases h; exact .inl ⟨ho, hb, .inl ⟨e, hd, rfl⟩⟩
    · exact .inl ⟨ho, hb, .inr ⟨i, hd, ((exec_next_iff i s t).mp h).2⟩⟩
  · next ho =>
    split at h
    · next ha =>
      split at h
      · cases h
      · next hb => cases h; exact .inr (.inl ⟨ha, by simpa using hb, rfl⟩)
    · next ha =>
      split at h
      · next hl =>
        split at h
        · cases h
        · next hb => cases h; exact .inr (.inr (.inl ⟨hl, by simpa using hb, rfl⟩))
      · next hl => cases h; exact .inr (.inr (.inr ⟨by simp [guardedOffset, ho, ha, hl], rfl⟩))

/-- A host data access is allowed exactly when the host keeps its duties. -/
theorem hostRefusal_none_iff (cfg : Config) (s : State) (a n : Nat) :
    hostRefusal cfg s a n = none ↔ DataAccessOk cfg s a n := by
  unfold hostRefusal DataAccessOk
  split
  · next h => simp [Nat.not_le.mpr h]
  · next h =>
    split
    · next ho => simp at ho; simp [ho]
    · next ho =>
      simp at ho
      split
      · next hov => simp [hov]
      · next hov => simp at hov; simp [hov, ho, Nat.not_lt.mp h]

/-- What a host store can do when it answers a next state. -/
theorem hostPoke_next {cfg : Config} {addr : Word} {bs : List Byte} {s t : State}
    (h : hostPoke cfg addr bs s = .next t) :
    DataAccessOk cfg s addr.toNat bs.length ∧ t = { s with mem := Memory.memWrite s.mem addr.toNat bs } := by
  unfold hostPoke at h
  split at h
  · cases h
  · next hn => cases h; exact ⟨(hostRefusal_none_iff ..).mp hn, rfl⟩

/-- What a host load can do when it answers a next state. -/
theorem hostPeek_next {cfg : Config} {addr : Word} {n : Nat} {s t : State} (h : hostPeek cfg addr n s = .next t) :
    DataAccessOk cfg s addr.toNat n ∧ t = s.respond (.bytes addr (Memory.memRead s.mem addr.toNat n)) := by
  unfold hostPeek at h
  split at h
  · cases h
  · next hn => cases h; exact ⟨(hostRefusal_none_iff ..).mp hn, rfl⟩

/-- What a micro-step can do when it answers a next state (the rows of R109). -/
theorem microStep_next {cfg : Config} {s t : State} (h : microStep cfg s = .next t) :
    (s.phase = .idle ∧ t = s) ∨
    (s.phase = .single ∧ t = (chunkOp cfg (dirOf s.op) s.latA.toNat s).completed) ∨
    (s.phase = .tailFirst ∧
      t = ((chunkOp cfg .inv (windowAddr cfg s.latA.toNat s.latL.toNat) s).atIdx 0).atPhase .aligned) ∨
    (s.phase = .aligned ∧ s.idx + 1 < alignedChunks cfg s.latL.toNat ∧
      t = alignedChunk cfg (dirOf s.op) s.latA.toNat s.idx s) ∨
    (s.phase = .aligned ∧ s.idx + 1 = alignedChunks cfg s.latL.toNat ∧
      (s.op = .encb ∧ tailPass cfg s.latL.toNat = true) ∧
      t = (alignedChunk cfg (dirOf s.op) s.latA.toNat s.idx s).atPhase .tailLast) ∨
    (s.phase = .aligned ∧ s.idx + 1 = alignedChunks cfg s.latL.toNat ∧
      ¬ (s.op = .encb ∧ tailPass cfg s.latL.toNat = true) ∧
      t = (alignedChunk cfg (dirOf s.op) s.latA.toNat s.idx s).completed) ∨
    (s.phase = .tailLast ∧
      t = (chunkOp cfg .fwd (windowAddr cfg s.latA.toNat s.latL.toNat) s).completed) := by
  unfold microStep at h
  split at h
  · next hp => cases h; exact .inl ⟨hp, rfl⟩
  · next hp => cases h; exact .inr (.inl ⟨hp, rfl⟩)
  · next hp => cases h; exact .inr (.inr (.inl ⟨hp, rfl⟩))
  · next hp =>
    unfold alignedStep at h
    simp only at h
    split at h
    · next hi => cases h; exact .inr (.inr (.inr (.inl ⟨hp, hi, rfl⟩)))
    · split at h
      · next hi =>
        split at h
        · next hc => cases h; exact .inr (.inr (.inr (.inr (.inl ⟨hp, hi, hc, rfl⟩))))
        · next hc => cases h; exact .inr (.inr (.inr (.inr (.inr (.inl ⟨hp, hi, hc, rfl⟩)))))
      · cases h
  · next hp => cases h; exact .inr (.inr (.inr (.inr (.inr (.inr ⟨hp, rfl⟩)))))

end Sys2Proof.Machine
end

