-- ==== Sys2Proof/Tests/Slice0.lean ====
section
/-! SUPPORT. Tests. The expected values are those of `95_test_vectors.md` (named in each docstring) or written out from
the rule cited; then one witness for the hypotheses of each obligation, at the boundary of each clause. -/

namespace Sys2Proof.Tests

open Sys2Proof Sys2Proof.Machine

/-! ### Helpers -/

/-- The test key `KT`. -/
def keyT : Key := ⟨0x00112233, 0x44556677, 0x8899AABB, 0xCCDDEEFF⟩

/-- The test key `K0`. -/
def key0 : Key := ⟨0, 0, 0, 0⟩

/-- The bytes `00`, `01`, … of a buffer of length `n`. -/
def counting (n : Nat) : List Byte := (List.range n).map (BitVec.ofNat 8)

/-- The machine after reset with this host script. -/
def idleWith (script : List HostAction) : State := { State.reset with script := script }

/-- The machine after reset with a key, bytes at an address, the operands set to them, and a command to write. -/
def ready (k : Key) (a : Word) (bs : List Byte) (len : Word) (command : Word) : State :=
  { State.reset with
    k := k, mem := Memory.memWrite [] a.toNat bs, bufAddr := a, bufLen := len, script := [.wr .cmd command] }

/-- `ENCB` of 17 bytes at `0x1000` just started (R109), with this host script. -/
def running (script : List HostAction) : State :=
  begin hw .encb { State.reset with bufAddr := 0x1000, bufLen := 17, script := script }

/-- `ENCC` of the chunk at `0x1000` just started (R109), with this host script. -/
def runningChunk (script : List HostAction) : State :=
  begin hw .encc { State.reset with bufAddr := 0x1000, script := script }

/-- Does the outcome hold a next state with this property. -/
def nextHas (o : Host.Outcome State Fault Refusal) (p : State → Bool) : Bool :=
  match o with
  | .next t => p t
  | .fault _ => false
  | .refused _ => false

/-- One step leaves these bytes at an address and this `STATUS`. -/
def leaves (s : State) (a : Nat) (bs : List Byte) (status : Word) : Bool :=
  nextHas (step s) fun t => Memory.memRead t.mem a bs.length == bs && t.status == status

/-! ### Well-formedness refuses what is ill formed -/

/-- R60: a reserved bit that is not zero. -/
theorem test_wf_fields_reserved : CommandFields.wf { dir := 0, scope := 0, rsv := 1 } = false := by decide
/-- R11: `CHUNK_BYTES` is 8 or 16. -/
theorem test_wf_config_chunk : Config.wf { hw with chunkBytes := 12 } = false := by decide
/-- R58: a register access narrower than 32 bits. -/
theorem test_wf_access_narrow : accessWf 0x04 .byte = false ∧ accessWf 0x04 .half = false := by decide
/-- R58: a register access that is not at a multiple of 4. -/
theorem test_wf_access_misaligned : accessWf 0x06 .word = false := by decide
/-- R58: the same checks on a host's register actions. -/
theorem test_wf_action_register :
    HostAction.wf (.regWrite 0x08 .half 0) = false ∧ HostAction.wf (.regRead 0x01 .word) = false := by decide
/-- R41: a store whose last byte is past the top of the address space. -/
theorem test_wf_action_poke : HostAction.wf (.poke 0xFFFFFFFF [1, 2]) = false := by decide
/-- R41: a load whose last byte is past the top of the address space. -/
theorem test_wf_action_peek : HostAction.wf (.peek 0xFFFFFFFF 2) = false := by decide

/-! ### Decoding: the words written out bit by bit from R60 and R61 -/

theorem test_decode_encc : decode 0b00000000000000000000000000000000#32 = .ok .encc := by decide
theorem test_decode_decc : decode 0b00000000000000000000000000000001#32 = .ok .decc := by decide
theorem test_decode_encb : decode 0b00000000000000000000000000000010#32 = .ok .encb := by decide
theorem test_decode_decb : decode 0b00000000000000000000000000000011#32 = .ok .decb := by decide
/-- R62: the lowest illegal word, and one with only the top bit set. -/
theorem test_decode_illegal :
    decode 0b00000000000000000000000000000100#32 = .error (.illegalCommand 4) ∧
    decode 0b10000000000000000000000000000000#32 = .error (.illegalCommand 0x80000000) := by decide
theorem test_decode_table_word : decodeTableWord 32 3 = some .decb ∧ decodeTableWord 32 4 = none := by decide

/-! ### The engine -/

/-- V-M2 and V-M5. -/
theorem test_mix :
    mix 0x07060504 0x9E3779B9 0x00112233 0x44556677 = 0x91C19A51 ∧
    mix 0x12345678 0x3C6EF372 0x8899AABB 0xCCDDEEFF = 0x2813CA63 := by decide
/-- V-K2, the trace after round 1. -/
theorem test_round_one :
    encRound mix keyT ⟨0x03020100, 0x07060504, 0⟩ = ⟨0x94C39B51, 0x3EB2461C, 0x9E3779B9⟩ := by decide
/-- V-K1, forward. -/
theorem test_enc_block : encBlock hw key0 0 0 = ⟨0x41EA3A0A, 0x94BAA940, 0xC6EF3720⟩ := by decide +kernel
/-- V-K6, inverse of the plaintext pair. -/
theorem test_dec_block : decBlock hw keyT 1 0 = ⟨0x24718EE7, 0x2335C2D7, 0⟩ := by decide +kernel

/-! ### The commands, one step each -/

/-- V-C2. -/
theorem test_encc_vc2 : leaves (ready keyT 0x1000 (counting 16) 0 0) 0x1000
    [0x06, 0xA3, 0xEA, 0x39, 0x2E, 0x07, 0x91, 0x43, 0x9E, 0x8A, 0x02, 0x05, 0x4F, 0xAD, 0x2A, 0x08] 2 = true := by
  decide +kernel
/-- P5: an odd address, and the guard byte just past the chunk. -/
theorem test_encc_p5 : leaves (ready key0 0x3003 (List.replicate 16 0 ++ [0xAA]) 0 0) 0x3003
    [0x0A, 0x3A, 0xEA, 0x41, 0x40, 0xA9, 0xBA, 0x94, 0x0A, 0x3A, 0xEA, 0x41, 0x40, 0xA9, 0xBA, 0x94, 0xAA] 2 = true := by
  decide +kernel
/-- V-C2, last column. -/
theorem test_decc_vc2 : leaves (ready keyT 0x1000 (counting 16) 0 1) 0x1000
    [0x33, 0xC7, 0x92, 0xEF, 0x58, 0x93, 0x38, 0xCE, 0xEE, 0xEA, 0x94, 0xCC, 0x4C, 0x4B, 0xB9, 0x5A] 2 = true := by
  decide +kernel
/-- V-B5. -/
theorem test_encb_vb5 : leaves (ready keyT 0x1000 (counting 17) 17 2) 0x1000
    [0x06, 0x22, 0x69, 0x50, 0x6C, 0x26, 0xE8, 0xD6, 0x63, 0xB7, 0x1F, 0x26, 0xCD, 0x62, 0xE8, 0x50, 0xD3] 2 = true := by
  decide +kernel
/-- V-B3: 15 bytes are left as they are, with `DONE`. -/
theorem test_encb_vb3 : leaves (ready keyT 0x2000 (counting 15) 15 2) 0x2000
    [0, 1, 2, 3, 4, 5, 6, 7, 8, 9, 10, 11, 12, 13, 14] 2 = true := by decide +kernel
/-- V-D3. -/
theorem test_decb_vd3 : leaves (ready keyT 0x1000 (counting 17) 17 3) 0x1000
    [0x7F, 0xED, 0x03, 0xD6, 0xC6, 0xAF, 0x60, 0xAF, 0x0A, 0xAD, 0x7B, 0xDC, 0x56, 0xAE, 0xBE, 0x8D, 0x07] 2 = true := by
  decide +kernel
/-- V-D6: two aligned chunks and a tail. -/
theorem test_decb_vd6 : leaves (ready keyT 0x1000 (counting 33) 33 3) 0x1000
    [0x33, 0xC7, 0x92, 0xEF, 0x58, 0x93, 0x38, 0xCE, 0xEE, 0xEA, 0x94, 0xCC, 0x4C, 0x4B, 0xB9, 0x5A,
     0x46, 0xFC, 0x1A, 0x0C, 0x08, 0x94, 0x8A, 0x9D, 0x3F, 0x1F, 0xCF, 0x38, 0x6A, 0x55, 0x71, 0x66, 0x14] 2 = true := by
  decide +kernel
/-- P4: an illegal word after a completed command. -/
theorem test_illegal_p4 : nextHas (step { idleWith [.wr .cmd 4] with status := 2 }) (fun t => t.status == 4) = true := by
  decide
/-- P1: the memory events of `ENCB` at 17 bytes. -/
theorem test_events_p1 : accessesOf (commandOps hw .encb 0x1000 17) =
    [.load 0x1000, .load 0x1004, .store 0x1000, .store 0x1004, .load 0x1008, .load 0x100C, .store 0x1008, .store 0x100C,
     .load 0x1001, .load 0x1005, .store 0x1001, .store 0x1005, .load 0x1009, .load 0x100D, .store 0x1009, .store 0x100D] := by
  decide
/-- P4: `CMD` reads 0. -/
theorem test_read_cmd : nextHas (step (idleWith [.rd .cmd])) (fun t => t.responses == [.reg 0 0]) = true := by decide

/-! ### The other parameter values -/

/-- V-C3: big-endian words. -/
theorem test_big_endian_vc3 : chunkString { hw with byteOrder := .be } .fwd keyT (counting 16) =
    [0xCB, 0x4A, 0x75, 0x6A, 0x44, 0x04, 0x9B, 0xA9, 0x43, 0x7D, 0xBB, 0xF7, 0x74, 0x0B, 0x9F, 0x86] := by
  decide +kernel
/-- V-T1: the window pass on an aligned length. -/
theorem test_tail_pass_vt1 : encString { hw with tailPassWhenAligned := true } keyT (counting 16) =
    [0x9E, 0xA6, 0x06, 0xC5, 0x04, 0xBB, 0x52, 0xCE, 0xFE, 0xA8, 0xD5, 0xB0, 0xD7, 0x39, 0x1C, 0x58] := by
  decide +kernel
/-- V-E6: 8-byte chunks. -/
theorem test_chunk_eight_ve6 : encString { hw with chunkBytes := 8 } keyT (counting 17) =
    [0x06, 0xA3, 0xEA, 0x39, 0x2E, 0x07, 0x91, 0x43, 0x9E, 0xB7, 0x1F, 0x26, 0xCD, 0x62, 0xE8, 0x50, 0xD3] := by
  decide +kernel

/-! ### Witnesses: states that meet the hypotheses of the obligations -/

theorem idleWith_inv (script : List HostAction) : StateInv (idleWith script) :=
  ⟨rfl, rfl, rfl, by simp [idleWith, State.reset], by simp [idleWith, State.reset, State.busy],
    by simp [idleWith, State.reset, State.busy], trivial⟩

theorem running_status (script : List HostAction) : (running script).status = 1 := by
  show statusStarted 0 = 1; decide

theorem running_inv (script : List HostAction) : StateInv (running script) :=
  ⟨rfl, rfl, rfl, by rw [running_status]; decide, by simp only [State.busy, State.done, running_status]; decide,
    by simp only [State.busy, running_status]; exact ⟨fun _ => nofun, fun _ => rfl⟩,
    ⟨rfl, by show 0 < alignedChunks hw (17#32).toNat; decide, rfl, rfl, by show (16 : Nat) ≤ 17; decide,
      by show (0x1000 + 17 : Nat) ≤ Config.ADDR_SPACE; decide, rfl⟩⟩

theorem running_busy (script : List HostAction) : (running script).busy = true := by
  simp only [State.busy, running_status]; decide

/-- `ResetLeavesStatedValues`. -/
theorem witness_reset_idle : (idleWith [.reset]).script = .reset :: [] ∧ (idleWith [.reset]).busy = false := ⟨rfl, rfl⟩
/-- `ResetDuringCommandLosesItsRange`: for a buffer command and for a chunk command, with bytes first, last and past. -/
theorem witness_reset_busy :
    (running [.reset]).script = .reset :: [] ∧ (running [.reset]).busy = true ∧ Memory.wf (running [.reset]).mem = true ∧
    (runningChunk [.reset]).script = .reset :: [] ∧ (runningChunk [.reset]).busy = true ∧
    Memory.wf (runningChunk [.reset]).mem = true := by
  refine ⟨rfl, running_busy _, rfl, rfl, ?_, rfl⟩
  show (statusStarted 0).getLsbD 0 = true; decide
/-- `OpcodeMapDecodes`: the least word with a reserved bit, and the greatest. -/
theorem witness_reserved_word :
    (0x00000004#32).extractLsb' 2 30 ≠ 0 ∧ (0xFFFFFFFF#32).extractLsb' 2 30 ≠ 0 := by decide
/-- `StepRunsDecodedCommand`. -/
theorem witness_cmd_write :
    (idleWith [.wr .cmd 3]).script = .wr .cmd 3 :: [] ∧ decode 3 = .ok .decb := ⟨rfl, by decide⟩
/-- `IllegalCommandIsRecorded`: the state left after the illegal word then meets `RangeOk` for a no-op. -/
theorem witness_illegal :
    (idleWith [.wr .cmd 4]).script = .wr .cmd 4 :: [] ∧ (idleWith [.wr .cmd 4]).busy = false ∧ 4 ≤ (4#32).toNat ∧
    RangeOk hw .encb (idleWith []).illegalCommand ∧ RangeOk hw .encc (idleWith []).illegalCommand :=
  ⟨rfl, rfl, by decide, ⟨by decide, rfl⟩, ⟨by decide, rfl⟩⟩
/-- `OnlyResetClearsIll`. -/
theorem witness_ill : ∃ s t, s.ill = true ∧ step s = .next t ∧ ∀ rest, s.script ≠ .reset :: rest :=
  ⟨(idleWith [.rd .status]).illegalCommand, _, ill_illegalCommand _, rfl, fun _ => nofun⟩
/-- `EnccEncryptsChunk`, `DeccDecryptsChunk`, `CommandCompletesExactlyInRange`: the highest chunk. -/
theorem witness_chunk : ∃ s : State, Memory.wf s.mem = true ∧ s.busy = false ∧ s.bufAddr.toNat + 16 = 2 ^ 32 ∧
    ordinary s.nonRam s.bufAddr.toNat 16 = true ∧ RangeOk hw .encc s :=
  ⟨{ State.reset with bufAddr := 0xFFFFFFF0 }, rfl, rfl, by decide, rfl, by decide, rfl⟩
/-- `EncbEncryptsBuffer`, `DecbDecryptsBuffer`, `BufferRoundTrip`: the shortest buffer, ending at the top. -/
theorem witness_buffer : ∃ s : State, Memory.wf s.mem = true ∧ s.busy = false ∧ s.bufLen.toNat = 16 ∧
    s.bufAddr.toNat + s.bufLen.toNat = 2 ^ 32 ∧ ordinary s.nonRam s.bufAddr.toNat s.bufLen.toNat = true ∧
    RangeOk hw .encb s :=
  ⟨{ State.reset with bufAddr := 0xFFFFFFF0, bufLen := 16 }, rfl, rfl, by decide, by decide, rfl, by decide, rfl⟩
/-- `ShortBufferIsSilentNoOp`, and the last clause of `RangePastTopIsRefused`: 15 bytes at the last address. -/
theorem witness_short : ∃ s : State, s.busy = false ∧ s.bufLen.toNat = 15 ∧ s.bufAddr.toNat = 2 ^ 32 - 1 :=
  ⟨{ State.reset with bufAddr := 0xFFFFFFFF, bufLen := 15 }, rfl, by decide, by decide⟩
/-- `RangePastTopIsRefused`: one byte past the top, for a chunk and for the shortest buffer. -/
theorem witness_past_top : ∃ s : State, s.busy = false ∧ s.bufAddr.toNat + 16 = 2 ^ 32 + 1 ∧ s.bufLen.toNat = 16 ∧
    2 ^ 32 < s.bufAddr.toNat + s.bufLen.toNat :=
  ⟨{ State.reset with bufAddr := 0xFFFFFFF1, bufLen := 16 }, rfl, by decide, by decide, by decide⟩
/-- `NonMemoryRangeIsRefused`: a region that holds only the chunk's last byte. -/
theorem witness_region : ∃ (s : State) (r : Region), s.busy = false ∧ r ∈ s.nonRam ∧ r.base ≤ 0x100F ∧
    0x100F < r.base + r.size ∧ s.bufAddr.toNat ≤ 0x100F ∧
    0x100F < s.bufAddr.toNat + rangeLength hw .decc s.bufLen.toNat ∧
    s.bufAddr.toNat + rangeLength hw .decc s.bufLen.toNat ≤ 2 ^ 32 :=
  ⟨{ State.reset with bufAddr := 0x1000, nonRam := [⟨0x100F, 1⟩] }, ⟨0x100F, 1⟩, rfl, by decide, by decide, by decide,
    by decide, by decide, by decide⟩
/-- `ResultDependsOnKeyAndBytesOnly` (P6), second clause of `CommandCompletesExactlyInRange`: the same bytes at `0x1000` and at `0x5005`, both commands run. -/
theorem witness_two_places :
    let s := ready keyT 0x1000 (counting 17) 17 2
    let s' := ready keyT 0x5005 (counting 17) 17 2
    Memory.wf s.mem = true ∧ Memory.wf s'.mem = true ∧ s.k = s'.k ∧ s.bufLen = s'.bufLen ∧
    Memory.memRead s.mem s.bufAddr.toNat 17 = Memory.memRead s'.mem s'.bufAddr.toNat 17 ∧
    (∃ t, exec .encb s = .next t) ∧ ∃ t, exec .encb s' = .next t :=
  ⟨by decide +kernel, by decide +kernel, rfl, rfl, by decide +kernel,
    ⟨_, (exec_next_iff _ _ _).mpr ⟨rfl, ⟨by decide, rfl⟩, rfl⟩⟩, _, (exec_next_iff _ _ _).mpr ⟨rfl, ⟨by decide, rfl⟩, rfl⟩⟩
/-- `RoundSumSchedule`: the first and the last round of each direction. -/
theorem witness_rounds : (0 : Nat) < 32 ∧ (31 : Nat) < 32 ∧ (32 : Nat) ≤ 32 := by decide
/-- `BlockTransformsAreInverse`, `ChunkOperationsAreInverse`, `BufferRoundTrip`, `ByteOrderConversions`: this hardware is
such a configuration, so is one with the other readings, and reset memory is canonical. -/
theorem witness_config : hw.wf = true ∧ hw.roundFn = roundFnOf mix ∧
    Config.wf { hw with chunkBytes := 8, byteOrder := .be, tailPassWhenAligned := true } = true ∧
    Memory.wf State.reset.mem = true := ⟨rfl, rfl, rfl, rfl⟩
/-- `ChunkOperationsAreInverse`: the same chunk elsewhere in another memory. -/
theorem witness_moved_chunk :
    Memory.wf (ready keyT 0x5005 (counting 16) 0 0).mem = true ∧
    (ready keyT 0x5005 (counting 16) 0 0).k = (ready keyT 0x1000 (counting 16) 0 0).k ∧
    Memory.memRead (ready keyT 0x5005 (counting 16) 0 0).mem 0x5005 hw.chunkBytes =
      Memory.memRead (ready keyT 0x1000 (counting 16) 0 0).mem 0x1000 hw.chunkBytes :=
  ⟨by decide +kernel, rfl, by decide +kernel⟩
/-- `ChunkMemoryEvents`: the first and the last byte of a chunk. -/
theorem witness_chunk_bytes : (0x1000 ≤ 0x1000 ∧ 0x1000 < 0x1000 + 16) ∧ 0x1000 ≤ 0x100F ∧ 0x100F < 0x1000 + 16 := by decide
/-- `BufferCommandTouchesExactlyItsBuffer`, `CommandRunsItsEngineActionsInOrder`, `BufferCommandsMeetTheClosedForms`,
`MicroStepsRefineTheCommand`: the shortest buffer and its last byte. -/
theorem witness_touches : hw.wf = true ∧ scopeIsBuffer .decb = true ∧ hw.chunkBytes ≤ 16 ∧ (15 : Nat) < 0 + 16 := by decide
/-- `CiphertextDependsOnItsOwnChunks`: with no tail and with a tail of one byte. -/
theorem witness_plaintexts : 16 ≤ (counting 16).length ∧ (counting 16).length % 16 = 0 ∧
    16 ≤ (counting 17).length ∧ (counting 17).length % 16 ≠ 0 := by decide
/-- `RunningCommandTerminates`, `MemoryChangesOnlyInOwnedRanges`, `StepKeepsTheInvariant`. -/
theorem witness_running : StateInv (running []) ∧ (running []).script = [] ∧ (running []).busy = true :=
  ⟨running_inv _, rfl, running_busy _⟩
/-- `RegisterMap`: a read, a write to `STATUS`, one to the first reserved offset, one to each operand register. -/
theorem witness_register_map :
    (idleWith [.regRead 0x10 .word]).script = .regRead 0x10 .word :: [] ∧
    (idleWith [.regWrite 0x04 .word 7]).script = .regWrite 0x04 .word 7 :: [] ∧
    (idleWith [.regWrite 0x10 .word 7]).script = .regWrite 0x10 .word 7 :: [] ∧
    (idleWith [.regWrite 0x08 .word 7]).busy = false ∧ (idleWith [.regWrite 0x0C .word 7]).busy = false ∧
    0x04 % 4 = 0 ∧ 0x08 % 4 = 0 ∧ 0x0C % 4 = 0 ∧ 0x10 % 4 = 0 := ⟨rfl, rfl, rfl, rfl, rfl, rfl, rfl, rfl, rfl⟩
/-- `NarrowRegisterAccessIsRefused`: each way to be narrow or misaligned, read and write. -/
theorem witness_narrow :
    (idleWith [.regWrite 0x08 .half 7]).script = .regWrite 0x08 .half 7 :: [] ∧ AccessWidth.half ≠ .word ∧
    (idleWith [.regRead 0x09 .word]).script = .regRead 0x09 .word :: [] ∧ 0x09 % 4 ≠ 0 := ⟨rfl, by decide, rfl, by decide⟩
/-- `WritesWhileBusyAreRefused`: a running command and a script for each clause. -/
theorem witness_busy_access :
    StateInv (running [.wr .cmd 0]) ∧ (running [.wr .cmd 0]).busy = true ∧
    (running [.wr .cmd 0]).script = .wr .cmd 0 :: [] ∧ (running [.wr .bufAddr 0]).script = .wr .bufAddr 0 :: [] ∧
    (running [.wr .bufLen 0]).script = .wr .bufLen 0 :: [] ∧ (running [.rd .status]).script = .rd .status :: [] ∧
    (running [.rd .bufAddr]).script = .rd .bufAddr :: [] ∧ (running [.rd .bufLen]).script = .rd .bufLen :: [] :=
  ⟨running_inv _, running_busy _, rfl, rfl, rfl, rfl, rfl, rfl⟩
/-- `HostIsShutOutOfTheBusyRange`: the last byte of the running command's buffer. -/
theorem witness_busy_range :
    (running [.poke 0x1010 [1]]).busy = true ∧ (running [.poke 0x1010 [1]]).latA.toNat ≤ 0x1010 ∧
    0x1010 < (running [.poke 0x1010 [1]]).latA.toNat + (running [.poke 0x1010 [1]]).latL.toNat ∧
    scopeIsBuffer (running [.poke 0x1010 [1]]).op = true ∧
    (running [.poke 0x1010 [1]]).script = .poke 0x1010 [1] :: [] ∧
    (running [.peek 0x1010 1]).script = .peek 0x1010 1 :: [] := by
  refine ⟨running_busy _, ?_, ?_, rfl, rfl, rfl⟩
  · show (0x1000 : Nat) ≤ 0x1010; decide
  · show (0x1010 : Nat) < 0x1000 + 17; decide
/-- `PseudoInstructionsExpand`: an idle block, and a completed one on which `WAIT` ends. -/
theorem witness_wait :
    (idleWith []).busy = false ∧ (idleWith [.wait]).completed.busy = false ∧
    (idleWith [.wait]).completed.script = .wait :: [] ∧ (idleWith [.wait]).completed.done = true :=
  ⟨rfl, busy_completed _, rfl, done_completed _⟩
/-- `HostDataAccess`: the last byte of the data space. -/
theorem witness_data_access :
    (idleWith [.poke 0xFFFFFFFF [1]]).script = .poke 0xFFFFFFFF [1] :: [] ∧
    DataAccessOk hw (idleWith [.poke 0xFFFFFFFF [1]]) (0xFFFFFFFF#32).toNat 1 ∧
    (idleWith [.peek 0xFFFFFFFF 1]).script = .peek 0xFFFFFFFF 1 :: [] ∧
    DataAccessOk hw (idleWith [.peek 0xFFFFFFFF 1]) (0xFFFFFFFF#32).toNat 1 := by
  refine ⟨rfl, ⟨by decide, rfl, ?_⟩, rfl, ⟨by decide, rfl, ?_⟩⟩ <;> simp [overlaps, State.busyLength, idleWith, State.reset, State.busy]
/-- `MemoryChangesOnlyInOwnedRanges`, `StepKeepsTheInvariant`, `OperandRegistersAreTheHosts`,
`KeyIsConstantAndUnreadable`: a step that changes a byte. -/
theorem witness_changed_byte : ∃ s t, StateInv s ∧ step s = .next t ∧ Memory.read t.mem 5 ≠ Memory.read s.mem 5 := by
  have h : hostRefusal hw (idleWith []) (5 : Word).toNat ([1] : List Byte).length = none := by
    simp [hostRefusal, overlaps, State.busyLength, idleWith, State.reset, State.busy, ordinary, Config.ADDR_SPACE]
  refine ⟨idleWith [.poke 5 [1]], { idleWith [] with mem := [(5, 1)] }, idleWith_inv _, ?_, by decide⟩
  rw [step_cons rfl]
  show hostPoke hw 5 [1] (idleWith []) = _
  simp only [hostPoke, h]
  rfl
/-- `StepRunsExactlyWhenTheHostKeepsItsDuties`: a write to `CMD` that keeps the duties and one that does not. -/
theorem witness_duty_cmd :
    StateInv (idleWith [.wr .cmd 2]) ∧ HostDuty hw (idleWith [.wr .cmd 2]) (.wr .cmd 2) ∧
    StateInv (running [.wr .cmd 2]) ∧ ¬ HostDuty hw (running [.wr .cmd 2]) (.wr .cmd 2) := by
  refine ⟨idleWith_inv _, ⟨rfl, fun _ => rfl, ?_⟩, running_inv _, ?_⟩
  · intro _ i hi
    rw [show decode 2 = .ok .encb by decide] at hi
    cases hi
    exact ⟨by decide, rfl⟩
  · rintro ⟨-, h, -⟩
    exact Bool.noConfusion ((running_busy _).symm.trans (h (Or.inl rfl)))

/-- The same: a write to each operand register, allowed when idle and not while a command runs; a read that is whole and
one that is misaligned. -/
theorem witness_duty_registers :
    HostDuty hw (idleWith [.wr .bufAddr 7]) (.wr .bufAddr 7) ∧ HostDuty hw (idleWith [.wr .bufLen 7]) (.wr .bufLen 7) ∧
    ¬ HostDuty hw (running [.wr .bufAddr 7]) (.wr .bufAddr 7) ∧
    ¬ HostDuty hw (running [.wr .bufLen 7]) (.wr .bufLen 7) ∧
    HostDuty hw (running [.rd .status]) (.rd .status) ∧
    ¬ HostDuty hw (running [.regRead 0x06 .word]) (.regRead 0x06 .word) := by
  refine ⟨⟨rfl, fun _ => rfl, nofun⟩, ⟨rfl, fun _ => rfl, nofun⟩, ?_, ?_, rfl, by simp [HostDuty, accessWf]⟩
  · rintro ⟨-, h, -⟩
    exact Bool.noConfusion ((running_busy _).symm.trans (h (Or.inr (Or.inl rfl))))
  · rintro ⟨-, h, -⟩
    exact Bool.noConfusion ((running_busy _).symm.trans (h (Or.inr (Or.inr rfl))))

/-- The byte just past the running command's buffer is the host's, the buffer's last byte is not. -/
theorem witness_duty_data (script : List HostAction) :
    DataAccessOk hw (running script) (0x1011#32).toNat 1 ∧ ¬ DataAccessOk hw (running script) (0x1010#32).toNat 1 := by
  have hl : (running script).busyLength hw = 17 := by simp only [State.busyLength, running_busy, if_true]; rfl
  have ha : (running script).latA.toNat = 0x1000 := rfl
  constructor
  · exact ⟨by decide, rfl, by rw [hl, ha]; decide⟩
  · rintro ⟨-, -, h⟩
    rw [hl, ha] at h
    exact absurd h (by decide)

/-- The same: a store and a load while a command runs, each allowed past the buffer and not on it; a load past the top;
`WAIT` and reset, which are always allowed; and no action at all. -/
theorem witness_duty_others :
    HostDuty hw (running [.poke 0x1011 [1]]) (.poke 0x1011 [1]) ∧
    ¬ HostDuty hw (running [.poke 0x1010 [1]]) (.poke 0x1010 [1]) ∧
    HostDuty hw (running [.peek 0x1011 1]) (.peek 0x1011 1) ∧
    ¬ HostDuty hw (running [.peek 0x1010 1]) (.peek 0x1010 1) ∧
    ¬ HostDuty hw (idleWith [.peek 0xFFFFFFFF 2]) (.peek 0xFFFFFFFF 2) ∧
    HostDuty hw (running [.wait]) .wait ∧ HostDuty hw (running [.reset]) .reset ∧
    StateInv (running [.reset]) ∧ StateInv (idleWith []) ∧ (idleWith []).script = [] := by
  refine ⟨(witness_duty_data _).1, (witness_duty_data _).2, (witness_duty_data _).1, (witness_duty_data _).2, ?_,
    trivial, trivial, running_inv _, idleWith_inv _, rfl⟩
  rintro ⟨h, -⟩
  exact absurd h (by decide)

end Sys2Proof.Tests
end

section
/-! What every command and every micro-step leaves alone, as one `CommandFrame`, composed from the frames of the named
operations (R21, R30 to R32). -/

namespace Sys2Proof.Machine

namespace CommandFrame

variable {s t u : State}

theorem trans (h : CommandFrame s t) (h' : CommandFrame t u) : CommandFrame s u where
  key := h'.key.trans h.key
  bufAddr := h'.bufAddr.trans h.bufAddr
  bufLen := h'.bufLen.trans h.bufLen
  nonRam := h'.nonRam.trans h.nonRam
  script := h'.script.trans h.script
  responses := h'.responses.trans h.responses
  resets := h'.resets.trans h.resets
  statusBits j hj := (h'.statusBits j hj).trans (h.statusBits j hj)

/-- `ILL` is one of the bits no command writes. -/
theorem ill_eq (h : CommandFrame s t) : t.ill = s.ill := h.statusBits illBit (Nat.le_refl _)

/-- `STATUS[31:3]` stays zero. -/
theorem status_lt_eight (h : CommandFrame s t) (hs : s.status.toNat < 8) : t.status.toNat < 8 := by
  rw [toNat_lt_eight_iff] at hs ⊢
  exact fun j hj => (h.statusBits j (Nat.le_of_lt hj)).trans (hs j hj)

end CommandFrame

section Operations

variable (cfg : Config) (s : State)

/-- Starting a command writes no bit of `STATUS` from `ILL` up. -/
theorem statusStarted_kept (w : Word) (j : Nat) (hj : illBit ≤ j) : (statusStarted w).getLsbD j = w.getLsbD j := by
  obtain hj | rfl := Nat.lt_or_eq_of_le hj
  · exact (status_reserved_kept w j hj).1
  · exact statusStarted_ill w

/-- Completing a command writes no bit of `STATUS` from `ILL` up. -/
theorem statusCompleted_kept (w : Word) (j : Nat) (hj : illBit ≤ j) :
    (statusCompleted w).getLsbD j = w.getLsbD j := by
  obtain hj | rfl := Nat.lt_or_eq_of_le hj
  · exact (status_reserved_kept w j hj).2.1
  · exact statusCompleted_ill w

theorem started_frame (i : Instr) : CommandFrame s (s.started i) :=
  ⟨rfl, rfl, rfl, rfl, rfl, rfl, rfl, statusStarted_kept s.status⟩

theorem completed_frame : CommandFrame s s.completed :=
  ⟨rfl, rfl, rfl, rfl, rfl, rfl, rfl, statusCompleted_kept s.status⟩

theorem latchA_frame : CommandFrame s s.latchA := ⟨rfl, rfl, rfl, rfl, rfl, rfl, rfl, fun _ _ => rfl⟩

theorem latchAL_frame : CommandFrame s s.latchAL := ⟨rfl, rfl, rfl, rfl, rfl, rfl, rfl, fun _ _ => rfl⟩

theorem atPhase_frame (p : Phase) : CommandFrame s (s.atPhase p) :=
  ⟨rfl, rfl, rfl, rfl, rfl, rfl, rfl, fun _ _ => rfl⟩

theorem atIdx_frame (n : Nat) : CommandFrame s (s.atIdx n) := ⟨rfl, rfl, rfl, rfl, rfl, rfl, rfl, fun _ _ => rfl⟩

theorem chunkOp_frame (d : Dir) (a : Nat) : CommandFrame s (chunkOp cfg d a s) := by
  constructor <;> simp

theorem alignedPass_frame (d : Dir) (a n : Nat) : CommandFrame s (alignedPass cfg d a n s) := by
  constructor <;> simp

@[simp] theorem alignedChunk_op (d : Dir) (a i : Nat) : (alignedChunk cfg d a i s).op = s.op := by
  simp [alignedChunk]
@[simp] theorem alignedChunk_phase (d : Dir) (a i : Nat) : (alignedChunk cfg d a i s).phase = .aligned := by
  simp [alignedChunk]
@[simp] theorem alignedChunk_idx (d : Dir) (a i : Nat) : (alignedChunk cfg d a i s).idx = i + 1 := rfl
@[simp] theorem alignedChunk_latA (d : Dir) (a i : Nat) : (alignedChunk cfg d a i s).latA = s.latA := by
  simp [alignedChunk]
@[simp] theorem alignedChunk_latL (d : Dir) (a i : Nat) : (alignedChunk cfg d a i s).latL = s.latL := by
  simp [alignedChunk]
@[simp] theorem alignedChunk_status (d : Dir) (a i : Nat) : (alignedChunk cfg d a i s).status = s.status := by
  simp [alignedChunk]

theorem alignedChunk_frame (d : Dir) (a i : Nat) : CommandFrame s (alignedChunk cfg d a i s) :=
  (((atPhase_frame s _).trans (atIdx_frame _ i)).trans (chunkOp_frame cfg _ d _)).trans (atIdx_frame _ _)

theorem encbLatched_frame : CommandFrame s (encbLatched s) :=
  (((started_frame s _).trans (latchAL_frame _)).trans (atIdx_frame _ _)).trans (atPhase_frame _ _)

theorem decbWindowed_frame : CommandFrame s (decbWindowed cfg s) := by
  have hlatched : CommandFrame s (s.started .decb).latchAL := (started_frame s _).trans (latchAL_frame _)
  have hpass (u : State) (hu : CommandFrame s u) : CommandFrame s ((u.atIdx 0).atPhase .aligned) :=
    (hu.trans (atIdx_frame _ _)).trans (atPhase_frame _ _)
  unfold decbWindowed
  split
  · exact hpass _ ((hlatched.trans (atPhase_frame _ _)).trans (chunkOp_frame cfg _ _ _))
  · exact hpass _ hlatched

end Operations

/-- The chunk commands run alike but for the direction (R90, R91). -/
theorem runCommand_chunk {cfg : Config} {i : Instr} (hi : scopeIsBuffer i = false) (s : State) :
    runCommand cfg i s = runChunkCommand cfg i s := by
  cases i with
  | encc => rfl
  | decc => rfl
  | encb => cases hi
  | decb => cases hi

/-- A buffer command below the no-op floor starts and completes (R101). -/
theorem runCommand_short {cfg : Config} {i : Instr} {s : State} (hi : scopeIsBuffer i = true)
    (h : s.bufLen.toNat < cfg.chunkBytes) : runCommand cfg i s = (s.started i).completed := by
  cases i with
  | encc => cases hi
  | decc => cases hi
  | encb => exact runEncb_short cfg s h
  | decb => exact runDecb_short cfg s h

/-- The shapes of a command's run: one chunk, nothing below the no-op floor, and the two buffer passes. -/
theorem runCommand_cases (cfg : Config) (i : Instr) (s : State) :
    (scopeIsBuffer i = false ∧ runCommand cfg i s = runChunkCommand cfg i s) ∨
    (scopeIsBuffer i = true ∧ s.bufLen.toNat < cfg.chunkBytes ∧ runCommand cfg i s = (s.started i).completed) ∨
    (i = .encb ∧ cfg.chunkBytes ≤ s.bufLen.toNat ∧ runCommand cfg i s = runEncb cfg s) ∨
    (i = .decb ∧ cfg.chunkBytes ≤ s.bufLen.toNat ∧ runCommand cfg i s = runDecb cfg s) := by
  cases hi : scopeIsBuffer i with
  | false => exact .inl ⟨rfl, runCommand_chunk hi s⟩
  | true =>
    obtain h | h := Nat.lt_or_ge s.bufLen.toNat cfg.chunkBytes
    · exact .inr (.inl ⟨rfl, h, runCommand_short hi h⟩)
    · cases i with
      | encc => cases hi
      | decc => cases hi
      | encb => exact .inr (.inr (.inl ⟨rfl, h, rfl⟩))
      | decb => exact .inr (.inr (.inr ⟨rfl, h, rfl⟩))

/-- Every command ends with a completion, of a state that its operations reach within the frame and with `OP` set. -/
theorem runCommand_eq_completed (cfg : Config) (i : Instr) (s : State) :
    ∃ u, runCommand cfg i s = u.completed ∧ CommandFrame s u ∧ u.op = i := by
  obtain ⟨-, h⟩ | ⟨-, -, h⟩ | ⟨rfl, hl, h⟩ | ⟨rfl, hl, h⟩ := runCommand_cases cfg i s <;> rw [h]
  · exact ⟨_, rfl, (((started_frame s i).trans (latchA_frame _)).trans (atPhase_frame _ _)).trans
      (chunkOp_frame cfg _ _ _), by simp⟩
  · exact ⟨_, rfl, started_frame s i, rfl⟩
  · rw [runEncb_long cfg s hl]
    have hpass := (encbLatched_frame s).trans
      (alignedPass_frame cfg _ .fwd s.bufAddr.toNat (alignedChunks cfg s.bufLen.toNat))
    simp only
    split
    · exact ⟨_, rfl, (hpass.trans (atPhase_frame _ _)).trans (chunkOp_frame cfg _ _ _), by simp [encbLatched]⟩
    · exact ⟨_, rfl, hpass, by simp [encbLatched]⟩
  · rw [runDecb_long cfg s hl]
    refine ⟨_, rfl, (decbWindowed_frame cfg s).trans (alignedPass_frame cfg _ _ _ _), ?_⟩
    rw [alignedPass_op, decbWindowed]
    split <;> simp

/-- No command writes the key, the operand registers, the host's fields or `STATUS` from `ILL` up. -/
theorem runCommand_frame (cfg : Config) (i : Instr) (s : State) : CommandFrame s (runCommand cfg i s) := by
  obtain ⟨u, h, hframe, -⟩ := runCommand_eq_completed cfg i s
  rw [h]
  exact hframe.trans (completed_frame u)

/-- Every command runs to its completion (R20, R109). -/
theorem runCommand_completed (cfg : Config) (i : Instr) (s : State) : Completed i (runCommand cfg i s) := by
  obtain ⟨u, h, -, hop⟩ := runCommand_eq_completed cfg i s
  rw [h]
  exact ⟨hop, rfl, busy_completed u, done_completed u⟩

/-- No micro-step writes what no command writes. -/
theorem microStep_frame {cfg : Config} {s t : State} (h : microStep cfg s = .next t) : CommandFrame s t := by
  obtain ⟨-, rfl⟩ | ⟨-, rfl⟩ | ⟨-, rfl⟩ | ⟨-, -, rfl⟩ | ⟨-, -, -, rfl⟩ | ⟨-, -, -, rfl⟩ | ⟨-, rfl⟩ := microStep_next h
  · exact ⟨rfl, rfl, rfl, rfl, rfl, rfl, rfl, fun _ _ => rfl⟩
  · exact (chunkOp_frame cfg s _ _).trans (completed_frame _)
  · exact ((chunkOp_frame cfg s _ _).trans (atIdx_frame _ _)).trans (atPhase_frame _ _)
  · exact alignedChunk_frame cfg s _ _ _
  · exact (alignedChunk_frame cfg s _ _ _).trans (atPhase_frame _ _)
  · exact (alignedChunk_frame cfg s _ _ _).trans (completed_frame _)
  · exact (chunkOp_frame cfg s _ _).trans (completed_frame _)

end Sys2Proof.Machine
end

section
/-! What commands, micro-steps and resets do to memory: canonical form kept, and no byte changed outside the range they
own (R34, R46, R47). -/

namespace Sys2Proof.Machine

namespace Memory

/-- `m'` is `m` but for the `n` bytes at `a`, and in canonical form; it stays inside the data space when they do. -/
structure ChangesOnly (a n : Nat) (m m' : Memory) : Prop where
  wf : wf m' = true
  inSpace : inSpace m = true → a + n ≤ Config.ADDR_SPACE → inSpace m' = true
  outside : ∀ b, b < a ∨ a + n ≤ b → read m' b = read m b

namespace ChangesOnly

variable {a n a' n' : Nat} {m m' m'' : Memory}

theorem refl (h : Memory.wf m = true) : ChangesOnly a n m m := ⟨h, fun hs _ => hs, fun _ _ => rfl⟩

theorem trans (h : ChangesOnly a n m m') (h' : ChangesOnly a n m' m'') : ChangesOnly a n m m'' where
  wf := h'.wf
  inSpace hs ha := h'.inSpace (h.inSpace hs ha) ha
  outside b hb := (h'.outside b hb).trans (h.outside b hb)

/-- A change inside a part of a range is one inside the range. -/
theorem mono (h : ChangesOnly a n m m') (hl : a' ≤ a) (hr : a + n ≤ a' + n') : ChangesOnly a' n' m m' where
  wf := h.wf
  inSpace hs ha := h.inSpace hs (hr.trans ha)
  outside b hb := h.outside b (by omega)

/-- A byte that changed lies in the range. -/
theorem mem_range (h : ChangesOnly a n m m') {b : Nat} (hb : read m' b ≠ read m b) : a ≤ b ∧ b < a + n := by
  by_contra hout
  exact hb (h.outside b (by omega))

theorem memWrite (h : Memory.wf m = true) (a : Nat) (bs : List Byte) :
    ChangesOnly a bs.length m (Memory.memWrite m a bs) where
  wf := wf_memWrite h a bs
  inSpace := inSpace_memWrite
  outside b hb := by rw [read_memWrite h, if_neg (by omega)]

theorem loseBytes (h : Memory.wf m = true) (r a n : Nat) : ChangesOnly a n m (Memory.loseBytes r m a n) where
  wf := wf_loseBytes r h a n
  inSpace := inSpace_loseBytes r
  outside b hb := by rw [read_loseBytes r h, if_neg (by omega)]

end ChangesOnly

end Memory

open Memory (ChangesOnly)

/-- The tail window ends where the buffer ends (R102). -/
theorem windowAddr_eq {cfg : Config} {l : Nat} (a : Nat) (h : cfg.chunkBytes ≤ l) :
    windowAddr cfg a l = a + (l - cfg.chunkBytes) := Nat.add_sub_assoc h a

/-- The aligned chunks lie inside the buffer (R102). -/
theorem alignedChunks_mul_le (cfg : Config) (l : Nat) : alignedChunks cfg l * cfg.chunkBytes ≤ l :=
  Nat.div_mul_le_self l cfg.chunkBytes

/-- A buffer command of at least a chunk owns its buffer (R47). -/
theorem rangeLength_long {cfg : Config} {i : Instr} {l : Nat} (hi : scopeIsBuffer i = true)
    (h : cfg.chunkBytes ≤ l) : rangeLength cfg i l = l := by
  rw [rangeLength, if_pos hi, if_neg (Nat.not_lt.mpr h)]

section WholeBlocks

variable {cfg : Config} (hc : cfg.subblocks * Config.BLOCK_BYTES = cfg.chunkBytes) {s : State}
  (hm : Memory.wf s.mem = true)
include hc hm

theorem chunkOp_changesOnly (d : Dir) (a : Nat) : ChangesOnly a cfg.chunkBytes s.mem (chunkOp cfg d a s).mem := by
  have h := ChangesOnly.memWrite hm a
    (chunkString cfg d s.k (Memory.memRead s.mem a (cfg.subblocks * Config.BLOCK_BYTES)))
  rwa [← chunkOp_mem cfg d a s hm, length_chunkString, hc] at h

theorem window_changesOnly (d : Dir) (a : Nat) {l : Nat} (hl : cfg.chunkBytes ≤ l) :
    ChangesOnly a l s.mem (chunkOp cfg d (windowAddr cfg a l) s).mem := by
  rw [windowAddr_eq a hl]
  exact (chunkOp_changesOnly hc hm d _).mono (by omega) (by omega)

theorem alignedChunk_changesOnly (d : Dir) (a : Nat) {i l : Nat} (hi : i < alignedChunks cfg l) :
    ChangesOnly a l s.mem (alignedChunk cfg d a i s).mem := by
  have hend : (i + 1) * cfg.chunkBytes ≤ l :=
    (Nat.mul_le_mul_right _ hi).trans (alignedChunks_mul_le cfg l)
  rw [Nat.succ_mul] at hend
  have h := chunkOp_changesOnly hc (s := (s.atPhase .aligned).atIdx i) hm d (a + i * cfg.chunkBytes)
  exact h.mono (by omega) (by omega)

theorem alignedPass_changesOnly (d : Dir) (a : Nat) {n l : Nat} (hn : n ≤ alignedChunks cfg l) :
    ChangesOnly a l s.mem (alignedPass cfg d a n s).mem := by
  induction n with
  | zero => exact .refl hm
  | succ n ih =>
    have hpass := ih (Nat.le_of_succ_le hn)
    exact hpass.trans (alignedChunk_changesOnly hc hpass.wf d a hn)

/-- A command changes no byte outside its range (R34). -/
theorem runCommand_changesOnly (i : Instr) :
    ChangesOnly s.bufAddr.toNat (rangeLength cfg i s.bufLen.toNat) s.mem (runCommand cfg i s).mem := by
  obtain ⟨hi, h⟩ | ⟨-, -, h⟩ | ⟨rfl, hl, h⟩ | ⟨rfl, hl, h⟩ := runCommand_cases cfg i s <;> rw [h]
  · rw [rangeLength, hi]
    exact chunkOp_changesOnly hc (s := (s.started i).latchA.atPhase .single) hm (dirOf i) s.bufAddr.toNat
  · exact .refl hm
  · rw [rangeLength_long rfl hl, runEncb_long cfg s hl]
    have hpass := alignedPass_changesOnly hc (s := encbLatched s) hm .fwd s.bufAddr.toNat
      (Nat.le_refl (alignedChunks cfg s.bufLen.toNat))
    simp only
    split
    · exact hpass.trans (window_changesOnly hc (s := State.atPhase (alignedPass cfg .fwd _ _ _) .tailLast)
        hpass.wf .fwd s.bufAddr.toNat hl)
    · exact hpass
  · rw [rangeLength_long rfl hl, runDecb_long cfg s hl]
    have hwindow : ChangesOnly s.bufAddr.toNat s.bufLen.toNat s.mem (decbWindowed cfg s).mem := by
      unfold decbWindowed
      split
      · exact window_changesOnly hc (s := (s.started .decb).latchAL.atPhase .tailFirst) hm .inv s.bufAddr.toNat hl
      · exact .refl hm
    exact hwindow.trans (alignedPass_changesOnly hc hwindow.wf .inv s.bufAddr.toNat (Nat.le_refl _))

end WholeBlocks

end Sys2Proof.Machine
end

section
/-! The invariant's parts: the sequencer's rows by phase, the range a running command owns, and how each kind of update
keeps `StateInv`. -/

namespace Sys2Proof.Machine

open Memory (ChangesOnly)

section Rows

variable {cfg : Config} {s t : State}

theorem sequencerOk_idle (hp : s.phase = .idle) : SequencerOk cfg s := by simp [SequencerOk, hp]

theorem sequencerOk_single (hp : s.phase = .single) :
    SequencerOk cfg s ↔ scopeIsBuffer s.op = false ∧ ChunkLatched cfg s := by simp [SequencerOk, hp]

theorem sequencerOk_tailFirst (hp : s.phase = .tailFirst) :
    SequencerOk cfg s ↔ s.op = .decb ∧ tailPass cfg s.latL.toNat = true ∧ BufferLatched cfg s := by
  simp [SequencerOk, hp]

theorem sequencerOk_aligned (hp : s.phase = .aligned) :
    SequencerOk cfg s ↔
      scopeIsBuffer s.op = true ∧ s.idx < alignedChunks cfg s.latL.toNat ∧ BufferLatched cfg s := by
  simp [SequencerOk, hp]

theorem sequencerOk_tailLast (hp : s.phase = .tailLast) :
    SequencerOk cfg s ↔
      s.op = .encb ∧ tailPass cfg s.latL.toNat = true ∧ s.idx = alignedChunks cfg s.latL.toNat ∧
        BufferLatched cfg s := by
  simp [SequencerOk, hp]

/-- The two kinds of a running command, by `SCOPE`. -/
theorem SequencerOk.latched (h : SequencerOk cfg s) (hp : s.phase ≠ .idle) :
    (scopeIsBuffer s.op = false ∧ ChunkLatched cfg s) ∨ (scopeIsBuffer s.op = true ∧ BufferLatched cfg s) := by
  cases hph : s.phase with
  | idle => exact absurd hph hp
  | single => exact .inl ((sequencerOk_single hph).mp h)
  | tailFirst =>
    obtain ⟨hop, -, hl⟩ := (sequencerOk_tailFirst hph).mp h
    exact .inr ⟨by rw [hop]; rfl, hl⟩
  | aligned =>
    obtain ⟨hop, -, hl⟩ := (sequencerOk_aligned hph).mp h
    exact .inr ⟨hop, hl⟩
  | tailLast =>
    obtain ⟨hop, -, -, hl⟩ := (sequencerOk_tailLast hph).mp h
    exact .inr ⟨by rw [hop]; rfl, hl⟩

/-- A latched buffer stays latched while the latches, the operand registers and the platform's map stay. -/
theorem BufferLatched.congr (h : BufferLatched cfg s) (hframe : CommandFrame s t) (hA : t.latA = s.latA)
    (hL : t.latL = s.latL) : BufferLatched cfg t where
  addr := by rw [hA, hframe.bufAddr, h.addr]
  len := by rw [hL, hframe.bufLen, h.len]
  floor := by rw [hL]; exact h.floor
  inSpace := by rw [hA, hL]; exact h.inSpace
  ordinaryRange := by rw [hA, hL, hframe.nonRam]; exact h.ordinaryRange

/-- The sequencer does not look at memory, at the host's script or at what the host has read. -/
theorem SequencerOk.withHost (h : SequencerOk cfg s) (m : Memory) (script : List HostAction)
    (responses : List Response) : SequencerOk cfg { s with mem := m, script := script, responses := responses } := by
  have hb (hl : BufferLatched cfg s) :
      BufferLatched cfg { s with mem := m, script := script, responses := responses } :=
    ⟨hl.addr, hl.len, hl.floor, hl.inSpace, hl.ordinaryRange⟩
  obtain ⟨p, hp⟩ : ∃ p, s.phase = p := ⟨_, rfl⟩
  cases p with
  | idle => exact sequencerOk_idle hp
  | single =>
    obtain ⟨hop, hl⟩ := (sequencerOk_single hp).mp h
    exact (sequencerOk_single (by exact hp)).mpr ⟨hop, hl.addr, hl.inSpace, hl.ordinaryRange⟩
  | tailFirst =>
    obtain ⟨hop, ht, hl⟩ := (sequencerOk_tailFirst hp).mp h
    exact (sequencerOk_tailFirst (by exact hp)).mpr ⟨hop, ht, hb hl⟩
  | aligned =>
    obtain ⟨hop, hi, hl⟩ := (sequencerOk_aligned hp).mp h
    exact (sequencerOk_aligned (by exact hp)).mpr ⟨hop, hi, hb hl⟩
  | tailLast =>
    obtain ⟨hop, ht, hi, hl⟩ := (sequencerOk_tailLast hp).mp h
    exact (sequencerOk_tailLast (by exact hp)).mpr ⟨hop, ht, hi, hb hl⟩

end Rows

/-- This hardware's chunk is a whole number of blocks (R10, R11). -/
theorem hw_wholeBlocks : hw.subblocks * Config.BLOCK_BYTES = hw.chunkBytes := rfl

theorem busyLength_idle {cfg : Config} {s : State} (h : s.busy = false) : s.busyLength cfg = 0 := by
  simp [State.busyLength, h]

theorem busyLength_chunk {cfg : Config} {s : State} (h : s.busy = true) (hop : scopeIsBuffer s.op = false) :
    s.busyLength cfg = cfg.chunkBytes := by simp [State.busyLength, h, hop]

theorem busyLength_buffer {cfg : Config} {s : State} (h : s.busy = true) (hop : scopeIsBuffer s.op = true) :
    s.busyLength cfg = s.latL.toNat := by simp [State.busyLength, h, hop]

namespace StateInv

variable {s t : State}

theorem phase_idle (h : StateInv s) (hb : s.busy = false) : s.phase = .idle := by
  by_contra hp
  simp [h.busyIffPhase.mpr hp] at hb

/-- The range of the running command lies inside the data space (R47). -/
theorem busyRange_inSpace (h : StateInv s) : s.latA.toNat + s.busyLength hw ≤ Config.ADDR_SPACE := by
  cases hb : s.busy with
  | false =>
    rw [busyLength_idle hb]
    exact Nat.le_of_lt s.latA.isLt
  | true =>
    obtain ⟨hop, hl⟩ | ⟨hop, hl⟩ := h.sequencer.latched (h.busyIffPhase.mp hb)
    · rw [busyLength_chunk hb hop]; exact hl.inSpace
    · rw [busyLength_buffer hb hop]; exact hl.inSpace

/-- What is left to show of an idle block. -/
theorem of_idle (hm : Memory.wf t.mem = true) (hs : Memory.inSpace t.mem = true) (hk : t.k = Config.KEY)
    (hst : t.status.toNat < 8) (hb : t.busy = false) (hp : t.phase = .idle) : StateInv t where
  memWf := hm
  memInSpace := hs
  key := hk
  statusReserved := hst
  notBusyAndDone := by simp [hb]
  busyIffPhase := by simp [hb, hp]
  sequencer := sequencerOk_idle hp

/-- The host may take actions off its script, note what it read and store inside the data space. -/
theorem withHost (h : StateInv s) {m : Memory} (hm : Memory.wf m = true) (hs : Memory.inSpace m = true)
    (script : List HostAction) (responses : List Response) :
    StateInv { s with mem := m, script := script, responses := responses } :=
  ⟨hm, hs, h.key, h.statusReserved, h.notBusyAndDone, h.busyIffPhase, h.sequencer.withHost m script responses⟩

theorem withScript (h : StateInv s) (script : List HostAction) : StateInv { s with script := script } :=
  h.withHost h.memWf h.memInSpace script s.responses

theorem withResponses (h : StateInv s) (responses : List Response) : StateInv { s with responses := responses } :=
  h.withHost h.memWf h.memInSpace s.script responses

/-- What is left to show of a command that has completed. -/
theorem of_completed (h : StateInv s) (hframe : CommandFrame s t) (hm : Memory.wf t.mem = true)
    (hs : Memory.inSpace t.mem = true) (hb : t.busy = false) (hp : t.phase = .idle) : StateInv t :=
  of_idle hm hs (hframe.key.trans h.key) (hframe.status_lt_eight h.statusReserved) hb hp

/-- What is left to show of a command that has moved on within its rows. -/
theorem of_running (h : StateInv s) (hframe : CommandFrame s t) (hm : Memory.wf t.mem = true)
    (hs : Memory.inSpace t.mem = true) (hps : s.phase ≠ .idle) (hst : t.status = s.status) (hpt : t.phase ≠ .idle)
    (hq : SequencerOk hw t) : StateInv t where
  memWf := hm
  memInSpace := hs
  key := hframe.key.trans h.key
  statusReserved := hst ▸ h.statusReserved
  notBusyAndDone := by rw [State.busy, State.done, hst]; exact h.notBusyAndDone
  busyIffPhase := by rw [State.busy, hst]; exact iff_of_true (h.busyIffPhase.mpr hps) hpt
  sequencer := hq

/-- A micro-step changes no byte outside the running command's range. -/
theorem microStep_changesOnly (h : StateInv s) (hstep : microStep hw s = .next t) :
    ChangesOnly s.latA.toNat (s.busyLength hw) s.mem t.mem := by
  have hbusy (p : Phase) (hp : s.phase = p) (hne : p ≠ .idle) : s.busy = true := h.busyIffPhase.mpr (hp ▸ hne)
  have haligned (hp : s.phase = .aligned) : ChangesOnly s.latA.toNat (s.busyLength hw) s.mem
      (alignedChunk hw (dirOf s.op) s.latA.toNat s.idx s).mem := by
    obtain ⟨hop, hi, -⟩ := (sequencerOk_aligned hp).mp h.sequencer
    rw [busyLength_buffer (hbusy _ hp (by simp)) hop]
    exact alignedChunk_changesOnly hw_wholeBlocks h.memWf _ _ hi
  obtain ⟨-, rfl⟩ | ⟨hp, rfl⟩ | ⟨hp, rfl⟩ | ⟨hp, -, rfl⟩ | ⟨hp, -, -, rfl⟩ | ⟨hp, -, -, rfl⟩ | ⟨hp, rfl⟩ :=
    microStep_next hstep
  · exact .refl h.memWf
  · obtain ⟨hop, -⟩ := (sequencerOk_single hp).mp h.sequencer
    rw [busyLength_chunk (hbusy _ hp (by simp)) hop, State.completed_mem]
    exact chunkOp_changesOnly hw_wholeBlocks h.memWf _ _
  · obtain ⟨hop, -, hl⟩ := (sequencerOk_tailFirst hp).mp h.sequencer
    rw [busyLength_buffer (hbusy _ hp (by simp)) (by rw [hop]; rfl), State.atPhase_mem, State.atIdx_mem]
    exact window_changesOnly hw_wholeBlocks h.memWf _ _ hl.floor
  · exact haligned hp
  · rw [State.atPhase_mem]; exact haligned hp
  · rw [State.completed_mem]; exact haligned hp
  · obtain ⟨hop, -, -, hl⟩ := (sequencerOk_tailLast hp).mp h.sequencer
    rw [busyLength_buffer (hbusy _ hp (by simp)) (by rw [hop]; rfl), State.completed_mem]
    exact window_changesOnly hw_wholeBlocks h.memWf _ _ hl.floor

/-- A micro-step keeps the invariant: it follows a row of R109 to the next one, or completes the command. -/
theorem microStep_keeps (h : StateInv s) (hstep : microStep hw s = .next t) : StateInv t := by
  have hframe := microStep_frame hstep
  have hmem := h.microStep_changesOnly hstep
  have hspace := hmem.inSpace h.memInSpace h.busyRange_inSpace
  obtain ⟨-, rfl⟩ | ⟨-, rfl⟩ | ⟨hp, rfl⟩ | ⟨hp, hi, rfl⟩ | ⟨hp, hi, ⟨hop, ht⟩, rfl⟩ | ⟨-, -, -, rfl⟩ | ⟨-, rfl⟩ :=
    microStep_next hstep
  · exact h
  · exact h.of_completed hframe hmem.wf hspace (by simp) (by simp)
  · obtain ⟨hop, -, hl⟩ := (sequencerOk_tailFirst hp).mp h.sequencer
    have hfirst : 0 < alignedChunks hw s.latL.toNat := Nat.div_pos hl.floor (by decide)
    refine h.of_running hframe hmem.wf hspace (by simp [hp]) (by simp) (by simp) ((sequencerOk_aligned (by simp)).mpr ?_)
    exact ⟨by simp [hop, scopeIsBuffer], by simpa using hfirst, hl.congr hframe (by simp) (by simp)⟩
  · obtain ⟨hop, -, hl⟩ := (sequencerOk_aligned hp).mp h.sequencer
    refine h.of_running hframe hmem.wf hspace (by simp [hp]) (by simp) (by simp)
      ((sequencerOk_aligned (by simp)).mpr ?_)
    exact ⟨by simpa using hop, by simpa using hi, hl.congr hframe (by simp) (by simp)⟩
  · obtain ⟨-, -, hl⟩ := (sequencerOk_aligned hp).mp h.sequencer
    refine h.of_running hframe hmem.wf hspace (by simp [hp]) (by simp) (by simp)
      ((sequencerOk_tailLast (by simp)).mpr ?_)
    exact ⟨by simpa using hop, by simpa using ht, by simpa using hi, hl.congr hframe (by simp) (by simp)⟩
  · exact h.of_completed hframe hmem.wf hspace (by simp) (by simp)
  · exact h.of_completed hframe hmem.wf hspace (by simp) (by simp)

/-- A whole command in range keeps the invariant. -/
theorem runCommand_keeps (h : StateInv s) {i : Instr} (hr : RangeOk hw i s) : StateInv (runCommand hw i s) :=
  have hmem := runCommand_changesOnly hw_wholeBlocks h.memWf i
  have hdone := runCommand_completed hw i s
  h.of_completed (runCommand_frame hw i s) hmem.wf (hmem.inSpace h.memInSpace hr.1) hdone.busy hdone.phase

/-- A reset keeps the invariant, while a command runs too (R160, R161). -/
theorem resetBlock_keeps (h : StateInv s) : StateInv (s.resetBlock hw) :=
  have hmem := ChangesOnly.loseBytes h.memWf s.resets s.latA.toNat (s.busyLength hw)
  of_idle hmem.wf (hmem.inSpace h.memInSpace h.busyRange_inSpace) h.key (by simp) (by simp [State.busy]) rfl

/-- An illegal command keeps the invariant (R141). -/
theorem illegalCommand_keeps (h : StateInv s) (hb : s.busy = false) : StateInv s.illegalCommand :=
  of_idle h.memWf h.memInSpace h.key (status_updates_lt_eight h.statusReserved).2.2
    (by rw [busy_illegalCommand, hb]) (h.phase_idle hb)

end StateInv

end Sys2Proof.Machine
end

section
/-! What a step that answers a next state has done, by the host's next action. -/

namespace Sys2Proof.Machine

/-- The moves of the machine from `s`, each with the next state it leads to. -/
inductive StepMove (s : State) : State → Prop
  /-- No action waits, or the host polls under `WAIT` (R67): the block makes a micro-step (R109). -/
  | engine {t : State} (responses : List Response) (hscript : s.script = [] ∨ ∃ rest, s.script = .wait :: rest)
      (hmicro : microStep hw { s with responses := responses } = .next t) : StepMove s t
  /-- The action reads something, or writes a register that ignores it: the block stays as it is. -/
  | quiet {a : HostAction} {rest : List HostAction} (responses : List Response) (hscript : s.script = a :: rest) :
      StepMove s { s with script := rest, responses := responses }
  /-- An illegal word is written to `CMD` (R141). -/
  | illegal {w : Word} {rest : List HostAction} (hscript : s.script = .wr .cmd w :: rest) (hidle : s.busy = false) :
      StepMove s (State.illegalCommand { s with script := rest })
  /-- A legal word is written to `CMD`, and its command runs (R29). -/
  | command {w : Word} {i : Instr} {rest : List HostAction} (hscript : s.script = .wr .cmd w :: rest)
      (hdecode : decode w = .ok i) (hrange : RangeOk hw i s) :
      StepMove s (runCommand hw i { s with script := rest })
  /-- `BUF_ADDR` is written (R31). -/
  | bufAddr {w : Word} {rest : List HostAction} (hscript : s.script = .wr .bufAddr w :: rest)
      (hidle : s.busy = false) : StepMove s { s with script := rest, bufAddr := w }
  /-- `BUF_LEN` is written (R32). -/
  | bufLen {w : Word} {rest : List HostAction} (hscript : s.script = .wr .bufLen w :: rest)
      (hidle : s.busy = false) : StepMove s { s with script := rest, bufLen := w }
  /-- The host stores bytes (R66). -/
  | poke {a : Word} {bs : List Byte} {rest : List HostAction} (hscript : s.script = .poke a bs :: rest)
      (haccess : DataAccessOk hw s a.toNat bs.length) :
      StepMove s { s with script := rest, mem := Memory.memWrite s.mem a.toNat bs }
  /-- The block is reset (R160). -/
  | reset {rest : List HostAction} (hscript : s.script = .reset :: rest) :
      StepMove s (State.resetBlock hw { s with script := rest })

/-- A register write that is not refused is a whole one (R58). -/
theorem hostAct_regWrite_next {cfg : Config} {offset : Nat} {width : AccessWidth} {w : Word} {s t : State}
    (h : hostAct cfg (.regWrite offset width w) s = .next t) :
    width = .word ∧ writeRegister offset w s = .next t := by
  simp only [hostAct] at h
  split at h
  · next hacc => exact ⟨by simp [accessWf] at hacc; exact hacc.1, h⟩
  · cases h

theorem hostAct_regRead_next {cfg : Config} {offset : Nat} {width : AccessWidth} {s t : State}
    (h : hostAct cfg (.regRead offset width) s = .next t) :
    t = s.respond (.reg offset (readRegister s offset)) := by
  simp only [hostAct] at h
  split at h
  · cases h; rfl
  · cases h

/-- A poll of `WAIT` ends the wait when `DONE` reads 1, and lets the block move otherwise (R67). -/
theorem hostWait_next {cfg : Config} {s t : State} (h : hostWait cfg s = .next t) :
    ∃ r, t = s.respond r ∨ microStep cfg { s.respond r with script := .wait :: s.script } = .next t := by
  refine ⟨.reg Reg.status.offset (readRegister s Reg.status.offset), ?_⟩
  simp only [hostWait] at h
  split at h
  · cases h; exact .inl rfl
  · exact .inr h

/-- The register writes among the moves. -/
theorem stepMove_of_regWrite {offset : Nat} {w : Word} {rest : List HostAction} {s t : State}
    (hscript : s.script = .regWrite offset .word w :: rest)
    (h : writeRegister offset w { s with script := rest } = .next t) : StepMove s t := by
  obtain ⟨rfl, hb, ⟨e, -, rfl⟩ | ⟨i, hd, hr, rfl⟩⟩ | ⟨rfl, hb, rfl⟩ | ⟨rfl, hb, rfl⟩ | ⟨-, rfl⟩ := writeRegister_next h
  · exact .illegal hscript hb
  · exact .command hscript hd hr
  · exact .bufAddr hscript hb
  · exact .bufLen hscript hb
  · exact .quiet s.responses hscript

/-- Every step that answers a next state is one of the moves. -/
theorem stepMove_of_step {s t : State} (h : step s = .next t) : StepMove s t := by
  cases hscript : s.script with
  | nil => exact .engine s.responses (.inl hscript) (step_nil hscript ▸ h)
  | cons a rest =>
    rw [step_cons hscript] at h
    cases a with
    | regWrite offset width w =>
      obtain ⟨rfl, hwrite⟩ := hostAct_regWrite_next h
      exact stepMove_of_regWrite hscript hwrite
    | regRead offset width =>
      rw [hostAct_regRead_next h]
      exact .quiet _ hscript
    | poke addr bs =>
      obtain ⟨hacc, rfl⟩ := hostPoke_next h
      exact .poke hscript hacc
    | peek addr n =>
      obtain ⟨-, rfl⟩ := hostPeek_next h
      exact .quiet _ hscript
    | wait =>
      obtain ⟨r, rfl | hmicro⟩ := hostWait_next h
      · exact .quiet _ hscript
      · refine .engine (s.responses ++ [r]) (.inr ⟨rest, hscript⟩) ?_
        rw [← hmicro, ← hscript]
        rfl
    | reset =>
      cases h
      exact .reset hscript

/-- No move writes the key (R21). -/
theorem step_key {s t : State} (hstep : step s = .next t) : t.k = s.k := by
  cases stepMove_of_step hstep with
  | engine _ _ hmicro => exact (microStep_frame hmicro).key
  | quiet => rfl
  | illegal => rfl
  | command => exact (runCommand_frame hw _ _).key
  | bufAddr => rfl
  | bufLen => rfl
  | poke => rfl
  | reset => rfl

end Sys2Proof.Machine
end

section
/-! What the host's register accesses do: a command word written to `CMD` (R29, R61), the operand registers, `STATUS` and
the reserved offsets (R28 to R32). -/

namespace Sys2Proof.Machine

/-- A legal word written to `CMD` runs its command; while busy both refuse alike (R29, R142). -/
theorem writeCmd_of_decode {w : Word} {i : Instr} (h : decode w = .ok i) (s : State) : writeCmd w s = exec i s := by
  obtain ⟨hb, hwrite⟩ | ⟨-, e, he, -⟩ | ⟨-, j, hj, hwrite⟩ := writeCmd_cases w s
  · rw [hwrite, exec_eq_launch, launch, if_pos hb]
  · cases h.symm.trans he
  · cases h.symm.trans hj
    exact hwrite

/-- The word of a command decodes to it (R61). -/
theorem decode_encode (i : Instr) : decode (encode i) = .ok i := by
  cases i <;> decide

/-- What the fetched word of a command puts at the head of the script. -/
theorem withFetchWord_encode_script (s : State) (i : Instr) :
    (s.withFetchWord 32 (encode i).toNat).script = .wr .cmd (encode i) :: s.script := by
  rw [State.withFetchWord, fetchAction, Nat.mod_eq_of_lt (encode i).isLt, BitVec.ofNat_toNat, BitVec.setWidth_eq]

section RegisterMap

variable {s : State} {rest : List HostAction} {offset : Nat}

/-- A reserved offset reads 0 (R28). -/
theorem readRegister_reserved (s : State) (h : 0x10 ≤ offset) : readRegister s offset = 0 := by
  have hne (r : Reg) : offset ≠ r.offset := by cases r <;> simp only [Reg.offset] <;> omega
  rw [readRegister, if_neg (hne _), if_neg (hne _), if_neg (hne _)]
  rfl

/-- `STATUS` and the reserved offsets ignore writes (R28, R30). -/
theorem writeRegister_ignored (w : Word) (s : State) (h : offset = 0x04 ∨ 0x10 ≤ offset) :
    writeRegister offset w s = .next s := by
  have hunguarded : ¬ guardedOffset offset := by simp only [guardedOffset, Reg.offset]; omega
  simp only [guardedOffset, not_or] at hunguarded
  obtain ⟨hcmd, haddr, hlen⟩ := hunguarded
  rw [writeRegister, if_neg hcmd, if_neg haddr, if_neg hlen]

theorem writeRegister_bufAddr (w : Word) (h : s.busy = false) :
    writeRegister 0x08 w s = .next { s with bufAddr := w } := by
  simp [writeRegister, Reg.offset, h]

theorem writeRegister_bufLen (w : Word) (h : s.busy = false) :
    writeRegister 0x0C w s = .next { s with bufLen := w } := by
  simp [writeRegister, Reg.offset, h]

/-- A whole access at a multiple of 4 is a defined one (R58). -/
theorem accessWf_word (h : offset % 4 = 0) : accessWf offset .word = true := by simp [accessWf, h]

theorem step_regRead (hscript : s.script = .regRead offset .word :: rest) (h : offset % 4 = 0) :
    step s = .next { s with script := rest, responses := s.responses ++ [.reg offset (readRegister s offset)] } := by
  rw [step_cons hscript, hostAct, if_pos (accessWf_word h)]; rfl

theorem step_regWrite {v : Word} (hscript : s.script = .regWrite offset .word v :: rest) (h : offset % 4 = 0) :
    step s = writeRegister offset v { s with script := rest } := by
  rw [step_cons hscript, hostAct, if_pos (accessWf_word h)]

end RegisterMap

end Sys2Proof.Machine
end

section
/-! What a command leaves in its buffer, seen from two machines at once: equal keys and equal bytes stay equal bytes
(R25, R35, R114). -/

namespace Sys2Proof.Machine

namespace Memory

/-- The same bytes written at the same place of two equal ranges leave them equal. -/
theorem memRead_memWrite_congr {m m' : Memory} (h : wf m = true) (h' : wf m' = true) {a a' n : Nat}
    (heq : memRead m a n = memRead m' a' n) (o : Nat) (bs : List Byte) :
    memRead (memWrite m (a + o) bs) a n = memRead (memWrite m' (a' + o) bs) a' n := by
  apply memRead_congr
  intro i hi
  have hread : read m (a + i) = read m' (a' + i) := by
    rw [← getD_memRead m a n i hi 0, heq, getD_memRead m' a' n i hi 0]
  rw [read_memWrite h, read_memWrite h', hread, Nat.add_sub_add_left, Nat.add_sub_add_left]
  exact if_congr (by omega) rfl rfl

/-- Equal ranges have equal parts. -/
theorem memRead_part {m m' : Memory} {a a' n : Nat} (heq : memRead m a n = memRead m' a' n) {o c : Nat}
    (hoc : o + c ≤ n) : memRead m (a + o) c = memRead m' (a' + o) c := by
  apply memRead_congr
  intro i hi
  rw [Nat.add_assoc, Nat.add_assoc, ← getD_memRead m a n (o + i) (by omega) 0, heq,
    getD_memRead m' a' n (o + i) (by omega) 0]

end Memory

/-- Two machines with the same key and the same `n` bytes, one's at `a` and the other's at `a'`. -/
structure SameBuffer (a a' n : Nat) (s s' : State) : Prop where
  wf : Memory.wf s.mem = true
  wf' : Memory.wf s'.mem = true
  key : s.k = s'.k
  bytes : Memory.memRead s.mem a n = Memory.memRead s'.mem a' n

namespace SameBuffer

variable {a a' n : Nat} {s s' t t' : State}

/-- Only the key and memory matter. -/
theorem congr (h : SameBuffer a a' n s s') (hk : t.k = s.k) (hm : t.mem = s.mem) (hk' : t'.k = s'.k)
    (hm' : t'.mem = s'.mem) : SameBuffer a a' n t t' :=
  ⟨hm ▸ h.wf, hm' ▸ h.wf', by rw [hk, hk', h.key], by rw [hm, hm', h.bytes]⟩

theorem after_atPhase (h : SameBuffer a a' n s s') (p : Phase) :
    SameBuffer a a' n (s.atPhase p) (s'.atPhase p) := h.congr rfl rfl rfl rfl

theorem after_atIdx (h : SameBuffer a a' n s s') (i : Nat) : SameBuffer a a' n (s.atIdx i) (s'.atIdx i) :=
  h.congr rfl rfl rfl rfl

theorem after_completed (h : SameBuffer a a' n s s') : SameBuffer a a' n s.completed s'.completed :=
  h.congr rfl rfl rfl rfl

variable {cfg : Config} (hc : cfg.subblocks * Config.BLOCK_BYTES = cfg.chunkBytes)
include hc

/-- A chunk operation at the same place of the two buffers. -/
theorem after_chunkOp (h : SameBuffer a a' n s s') (d : Dir) {o : Nat} (ho : o + cfg.chunkBytes ≤ n) :
    SameBuffer a a' n (chunkOp cfg d (a + o) s) (chunkOp cfg d (a' + o) s') where
  wf := wf_chunkOp cfg d _ s h.wf
  wf' := wf_chunkOp cfg d _ s' h.wf'
  key := by simpa using h.key
  bytes := by
    rw [chunkOp_mem cfg d _ s h.wf, chunkOp_mem cfg d _ s' h.wf', hc, Memory.memRead_part h.bytes ho, h.key]
    exact Memory.memRead_memWrite_congr h.wf h.wf' h.bytes o _

/-- The tail window of the two buffers. -/
theorem after_window (h : SameBuffer a a' n s s') (d : Dir) (hn : cfg.chunkBytes ≤ n) :
    SameBuffer a a' n (chunkOp cfg d (windowAddr cfg a n) s)
      (chunkOp cfg d (windowAddr cfg a' n) s') := by
  rw [windowAddr_eq a hn, windowAddr_eq a' hn]
  exact h.after_chunkOp hc d (by omega)

/-- The aligned pass over the two buffers, chunk by chunk. -/
theorem after_alignedPass (h : SameBuffer a a' n s s') (d : Dir) {q : Nat} (hq : q ≤ alignedChunks cfg n) :
    SameBuffer a a' n (alignedPass cfg d a q s) (alignedPass cfg d a' q s') := by
  induction q with
  | zero => exact h
  | succ q ih =>
    have hend : (q + 1) * cfg.chunkBytes ≤ n := (Nat.mul_le_mul_right _ hq).trans (alignedChunks_mul_le cfg n)
    rw [Nat.succ_mul] at hend
    exact ((((ih (Nat.le_of_succ_le hq)).after_atPhase .aligned).after_atIdx q).after_chunkOp hc d hend).after_atIdx _

/-- A whole command on the two buffers; a chunk command's buffer is the chunk. -/
theorem after_runCommand (h : SameBuffer s.bufAddr.toNat s'.bufAddr.toNat n s s') (i : Instr)
    (hlen : s.bufLen = s'.bufLen) (hn : n = if scopeIsBuffer i then s.bufLen.toNat else cfg.chunkBytes) :
    SameBuffer s.bufAddr.toNat s'.bufAddr.toNat n (runCommand cfg i s) (runCommand cfg i s') := by
  obtain ⟨hi, hrun⟩ | ⟨hi, hshort, hrun⟩ | ⟨rfl, hl, hrun⟩ | ⟨rfl, hl, hrun⟩ := runCommand_cases cfg i s <;> rw [hrun]
  · have hstart : SameBuffer s.bufAddr.toNat s'.bufAddr.toNat n (s.started i).latchA (s'.started i).latchA :=
      h.congr rfl rfl rfl rfl
    rw [runCommand_chunk hi]
    exact ((hstart.after_atPhase .single).after_chunkOp hc (dirOf i) (o := 0) (by simp [hn, hi])).after_completed
  · rw [runCommand_short hi (hlen ▸ hshort)]
    exact h.congr rfl rfl rfl rfl
  · obtain rfl : n = s.bufLen.toNat := hn
    have hstart : SameBuffer s.bufAddr.toNat s'.bufAddr.toNat s.bufLen.toNat (encbLatched s) (encbLatched s') :=
      h.congr rfl rfl rfl rfl
    have hpass := hstart.after_alignedPass hc .fwd (Nat.le_refl _)
    rw [runCommand, runEncb_long cfg s hl, runEncb_long cfg s' (hlen ▸ hl), ← hlen]
    simp only
    split
    · exact ((hpass.after_atPhase .tailLast).after_window hc .fwd hl).after_completed
    · exact hpass.after_completed
  · obtain rfl : n = s.bufLen.toNat := hn
    have hstart : SameBuffer s.bufAddr.toNat s'.bufAddr.toNat s.bufLen.toNat (s.started .decb).latchAL
        (s'.started .decb).latchAL := h.congr rfl rfl rfl rfl
    have hwindow : SameBuffer s.bufAddr.toNat s'.bufAddr.toNat s.bufLen.toNat (decbWindowed cfg s)
        (decbWindowed cfg s') := by
      rw [decbWindowed, decbWindowed, ← hlen]
      split
      · exact (((hstart.after_atPhase .tailFirst).after_window hc .inv hl).after_atIdx 0).after_atPhase .aligned
      · exact (hstart.after_atIdx 0).after_atPhase .aligned
    rw [runCommand, runDecb_long cfg s hl, runDecb_long cfg s' (hlen ▸ hl), ← hlen]
    exact (hwindow.after_alignedPass hc .inv (Nat.le_refl _)).after_completed

end SameBuffer

end Sys2Proof.Machine
end

section
/-! The settled statements about the machine as a whole. -/

namespace Sys2Proof.Machine

/-- Settles O40, move by move. -/
theorem stepKeepsTheInvariant : Obligations.StepKeepsTheInvariant := by
  intro s t h hstep
  cases stepMove_of_step hstep with
  | engine responses _ hmicro => exact (h.withResponses responses).microStep_keeps hmicro
  | quiet responses _ => exact h.withHost h.memWf h.memInSpace _ responses
  | illegal _ hidle => exact (h.withScript _).illegalCommand_keeps hidle
  | command _ _ hrange => exact (h.withScript _).runCommand_keeps hrange
  | bufAddr _ hidle => exact .of_idle h.memWf h.memInSpace h.key h.statusReserved hidle (h.phase_idle hidle)
  | bufLen _ hidle => exact .of_idle h.memWf h.memInSpace h.key h.statusReserved hidle (h.phase_idle hidle)
  | poke _ haccess =>
    exact h.withHost (Memory.wf_memWrite h.memWf _ _) (Memory.inSpace_memWrite h.memInSpace haccess.1) _ s.responses
  | reset _ => exact (h.withScript _).resetBlock_keeps

/-- Settles O7: no move but the reset writes a 0 to `ILL`. -/
theorem onlyResetClearsIll : Obligations.OnlyResetClearsIll := by
  intro s t hill hstep hnoReset
  cases stepMove_of_step hstep with
  | engine _ _ hmicro => exact (microStep_frame hmicro).ill_eq.trans hill
  | quiet => exact hill
  | illegal => exact ill_illegalCommand _
  | command => exact (runCommand_frame hw _ _).ill_eq.trans hill
  | bufAddr => exact hill
  | bufLen => exact hill
  | poke => exact hill
  | reset hscript => exact absurd hscript (hnoReset _)

/-- Settles O16: the two runs keep the two buffers equal. -/
theorem resultDependsOnKeyAndBytesOnly : Obligations.ResultDependsOnKeyAndBytesOnly := by
  intro i s s' t t' n hm hm' hk hlen hn hbytes ht ht'
  obtain ⟨-, -, rfl⟩ := (exec_next_iff i s t).mp ht
  obtain ⟨-, -, rfl⟩ := (exec_next_iff i s' t').mp ht'
  exact (SameBuffer.after_runCommand hw_wholeBlocks ⟨hm, hm', hk, hbytes⟩ i hlen hn).bytes

/-- Settles O36: every move changes memory inside the range that it owns. -/
theorem memoryChangesOnlyInOwnedRanges : Obligations.MemoryChangesOnlyInOwnedRanges := by
  intro s t b h hstep hb
  have hrunning (hr : s.latA.toNat ≤ b ∧ b < s.latA.toNat + s.busyLength hw) : s.busy = true := by
    by_contra hidle
    rw [busyLength_idle (by simpa using hidle)] at hr
    omega
  cases stepMove_of_step hstep with
  | engine responses hscript hmicro =>
    have hr := ((h.withResponses responses).microStep_changesOnly hmicro).mem_range hb
    exact .inr (.inr ⟨hrunning hr, hscript.imp_right fun ⟨rest, hwait⟩ => ⟨rest, .inl hwait⟩, hr⟩)
  | quiet => exact absurd rfl hb
  | illegal => exact absurd rfl hb
  | @command w i rest hscript hdecode _ =>
    have hr := (runCommand_changesOnly hw_wholeBlocks (h.withScript rest).memWf i).mem_range hb
    exact .inr (.inl ⟨w, i, rest, hscript, hdecode, hr⟩)
  | bufAddr => exact absurd rfl hb
  | bufLen => exact absurd rfl hb
  | @poke a bs rest hscript _ =>
    exact .inl ⟨a, bs, rest, hscript, (Memory.ChangesOnly.memWrite h.memWf a.toNat bs).mem_range hb⟩
  | @reset rest hscript =>
    have hr := (Memory.ChangesOnly.loseBytes h.memWf s.resets s.latA.toNat (s.busyLength hw)).mem_range hb
    exact .inr (.inr ⟨hrunning hr, .inr ⟨rest, .inr hscript⟩, hr⟩)

/-- Settles O37, move by move. -/
theorem operandRegistersAreTheHosts : Obligations.OperandRegistersAreTheHosts := by
  intro s t hstep
  cases stepMove_of_step hstep with
  | engine _ _ hmicro => exact ⟨.inl (microStep_frame hmicro).bufAddr, .inl (microStep_frame hmicro).bufLen⟩
  | quiet => exact ⟨.inl rfl, .inl rfl⟩
  | illegal => exact ⟨.inl rfl, .inl rfl⟩
  | command => exact ⟨.inl (runCommand_frame hw _ _).bufAddr, .inl (runCommand_frame hw _ _).bufLen⟩
  | bufAddr hscript _ => exact ⟨.inr (.inl ⟨_, hscript⟩), .inl rfl⟩
  | bufLen hscript _ => exact ⟨.inl rfl, .inr (.inl ⟨_, hscript⟩)⟩
  | poke => exact ⟨.inl rfl, .inl rfl⟩
  | reset hscript => exact ⟨.inr (.inr ⟨_, hscript⟩), .inr (.inr ⟨_, hscript⟩)⟩

/-- Settles O38: the key is no case of the register map. -/
theorem keyIsConstantAndUnreadable : Obligations.KeyIsConstantAndUnreadable :=
  ⟨fun _ _ => step_key, fun _ _ _ => rfl⟩

/-- Settles O39. -/
theorem resetMeetsTheInvariant : Obligations.ResetMeetsTheInvariant :=
  .of_idle rfl rfl rfl (by decide) (by decide) rfl

/-- Settles O1: an idle block owns no range for a reset to lose. -/
theorem resetLeavesStatedValues : Obligations.ResetLeavesStatedValues := by
  refine ⟨⟨rfl, rfl, rfl, rfl, rfl⟩, fun s rest hscript hidle => ?_⟩
  have hmem : (State.resetBlock hw { s with script := rest }).mem = s.mem := by
    rw [State.resetBlock_mem, busyLength_idle (s := { s with script := rest }) hidle]; rfl
  exact ⟨_, step_cons hscript, rfl, rfl, rfl, rfl, rfl, hmem, rfl, rfl, rfl⟩

/-- Settles O5: a write to `CMD` of a word that decodes is `exec`. -/
theorem stepRunsDecodedCommand : Obligations.StepRunsDecodedCommand := by
  have hwrite (s : State) (rest : List HostAction) (w : Word) (i : Instr) (hscript : s.script = .wr .cmd w :: rest)
      (hdecode : decode w = .ok i) : step s = exec i { s with script := rest } := by
    rw [step_cons hscript, hostAct_wr_cmd, writeCmd_of_decode hdecode]
  exact ⟨hwrite, fun s i => hwrite _ _ _ _ (withFetchWord_encode_script s i) (decode_encode i)⟩

/-- Settles O29, one rule of the register map for each clause. -/
theorem registerMap : Obligations.RegisterMap := by
  refine ⟨⟨rfl, rfl, rfl⟩, fun s => ⟨rfl, rfl, rfl, rfl⟩, fun s _ => readRegister_reserved s,
    fun s rest offset => step_regRead, fun s rest offset v hscript hal => ?_⟩
  rw [step_regWrite hscript hal]
  refine ⟨writeRegister_ignored v _, ?_, ?_⟩
  · rintro rfl hidle
    exact writeRegister_bufAddr v hidle
  · rintro rfl hidle
    exact writeRegister_bufLen v hidle

end Sys2Proof.Machine
end

section
/-! What a host access can be refused for, and what an allowed one does: register accesses by their width and offset
(R58), data accesses by the bytes they cover (R41, R46, R57, R66). -/

namespace Sys2Proof.Machine

/-- A register access is defined exactly when it is whole and aligned (R58). -/
theorem accessWf_iff (offset : Nat) (width : AccessWidth) :
    accessWf offset width = true ↔ width = .word ∧ offset % 4 = 0 := by
  simp [accessWf]

/-- Two ranges overlap exactly when they share a byte. -/
theorem overlaps_iff (a n b m : Nat) :
    overlaps a n b m = true ↔ ∃ x, (a ≤ x ∧ x < a + n) ∧ b ≤ x ∧ x < b + m := by
  simp only [overlaps, Bool.and_eq_true, decide_eq_true_eq]
  constructor
  · rintro ⟨⟨⟨hn, hm⟩, hab⟩, hba⟩
    exact ⟨max a b, by omega⟩
  · rintro ⟨x, hx⟩
    omega

/-- A range that shares a byte with one of the platform's regions is not ordinary memory (R46). -/
theorem ordinary_eq_false {regions : List Region} {r : Region} (hr : r ∈ regions) {a n b : Nat}
    (hrange : a ≤ b ∧ b < a + n) (hregion : r.base ≤ b ∧ b < r.base + r.size) : ordinary regions a n = false := by
  rw [ordinary, List.all_eq_false]
  exact ⟨r, hr, by simpa using (overlaps_iff ..).mpr ⟨b, hrange, hregion⟩⟩

/-- A range of no bytes is ordinary memory wherever it lies. -/
theorem ordinary_zero (regions : List Region) (a : Nat) : ordinary regions a 0 = true := by
  simp [ordinary, overlaps]

/-- What a running command owns from its latched address on (R57). -/
theorem busyLength_running {cfg : Config} {s : State} (h : s.busy = true) :
    s.busyLength cfg = if scopeIsBuffer s.op then s.latL.toNat else cfg.chunkBytes := by
  rw [State.busyLength, if_pos h]

section DataAccess

variable {cfg : Config} {s : State} {a : Word} {n : Nat} {bs : List Byte}

/-- A byte of the running command's range is not the host's to access (R57, R165). -/
theorem not_dataAccessOk_of_busyByte {b : Nat} (hbusy : s.latA.toNat ≤ b ∧ b < s.latA.toNat + s.busyLength cfg)
    (haccess : a.toNat ≤ b ∧ b < a.toNat + n) : ¬ DataAccessOk cfg s a.toNat n := by
  rintro ⟨-, -, hdisjoint⟩
  rw [(overlaps_iff ..).mpr ⟨b, haccess, hbusy⟩] at hdisjoint
  cases hdisjoint

/-- A host data access that is not allowed has a reason for its refusal. -/
theorem hostRefusal_eq_some (h : ¬ DataAccessOk cfg s a.toNat n) : ∃ r, hostRefusal cfg s a.toNat n = some r :=
  Option.ne_none_iff_exists'.mp (mt (hostRefusal_none_iff ..).mp h)

theorem hostPoke_refused (h : ¬ DataAccessOk cfg s a.toNat bs.length) : ∃ r, hostPoke cfg a bs s = .refused r := by
  obtain ⟨r, hr⟩ := hostRefusal_eq_some h
  exact ⟨r, by simp only [hostPoke, hr]⟩

theorem hostPeek_refused (h : ¬ DataAccessOk cfg s a.toNat n) : ∃ r, hostPeek cfg a n s = .refused r := by
  obtain ⟨r, hr⟩ := hostRefusal_eq_some h
  exact ⟨r, by simp only [hostPeek, hr]⟩

/-- An allowed `POKE` is one `MemWrite` (R41, R66). -/
theorem hostPoke_allowed (h : DataAccessOk cfg s a.toNat bs.length) :
    hostPoke cfg a bs s = .next { s with mem := Memory.memWrite s.mem a.toNat bs } := by
  simp only [hostPoke, (hostRefusal_none_iff ..).mpr h]

/-- An allowed `PEEK` is one `MemRead` (R41, R66). -/
theorem hostPeek_allowed (h : DataAccessOk cfg s a.toNat n) :
    hostPeek cfg a n s = .next (s.respond (.bytes a (Memory.memRead s.mem a.toNat n))) := by
  simp only [hostPeek, (hostRefusal_none_iff ..).mpr h]

end DataAccess

end Sys2Proof.Machine
end

section
/-! The bytes of words and the words of bytes (R42, R43), and `MemWrite` as a replacement of a string (R41). -/

namespace Sys2Proof.Machine

/-- Four bytes fill a little-endian word without overflow (R42). -/
theorem toNat_wordOfBytes_le (b0 b1 b2 b3 : Byte) :
    (wordOfBytes .le b0 b1 b2 b3).toNat =
      b0.toNat + 2 ^ 8 * b1.toNat + 2 ^ 16 * b2.toNat + 2 ^ 24 * b3.toNat := by
  rw [wordOfBytes, BitVec.toNat_ofNat, Nat.mod_eq_of_lt (by omega)]

/-- Four bytes fill a big-endian word without overflow (R42). -/
theorem toNat_wordOfBytes_be (b0 b1 b2 b3 : Byte) :
    (wordOfBytes .be b0 b1 b2 b3).toNat =
      2 ^ 24 * b0.toNat + 2 ^ 16 * b1.toNat + 2 ^ 8 * b2.toNat + b3.toNat := by
  rw [wordOfBytes, BitVec.toNat_ofNat, Nat.mod_eq_of_lt (by omega)]

namespace Memory

/-- `MemWrite` replaces the bytes from `a` on by its string, and no other (R41). -/
theorem replaces_memWrite {m : Memory} (h : wf m = true) (a : Nat) (bs : List Byte) :
    Replaces m (memWrite m a bs) a bs := ⟨wf_memWrite h a bs, read_memWrite h a bs⟩

/-- `LoadWord` gives back the word of a `StoreWord` at the same address, aligned or not (R43, R45). -/
theorem loadWord_storeWord {m : Memory} (h : wf m = true) (cfg : Config) (a : Nat) (w : Word) :
    loadWord cfg (storeWord cfg m a w) a = w := by
  have hbytes : memRead (storeWord cfg m a w) a 4 = bytesOfWord cfg.byteOrder w := by
    simpa [storeWord] using memRead_memWrite_same h a (bytesOfWord cfg.byteOrder w)
  calc loadWord cfg (storeWord cfg m a w) a
    _ = wordAt cfg.byteOrder (memRead (storeWord cfg m a w) a 4) 0 := (wordAt_memRead cfg _ a 4 0 (Nat.le_refl 4)).symm
    _ = w := by rw [hbytes]; simpa using wordAt_bytesOfWord cfg.byteOrder w []

end Memory

end Sys2Proof.Machine
end

section
/-! Why an idle block refuses a command (R46, R47), and the range of each kind of command. -/

namespace Sys2Proof.Machine

section Refusals

variable {i : Instr} {s : State} (hidle : s.busy = false)
include hidle

/-- A range past the top of the data space (R47). -/
theorem exec_rangeViolation (htop : Config.ADDR_SPACE < s.bufAddr.toNat + rangeLength hw i s.bufLen.toNat) :
    exec i s = .refused .rangeViolation := by
  rw [exec_eq_launch, launch, if_neg (by simp [hidle]), if_pos htop]

/-- A range inside the data space that is not ordinary memory (R46). -/
theorem exec_notOrdinaryMemory (hspace : s.bufAddr.toNat + rangeLength hw i s.bufLen.toNat ≤ Config.ADDR_SPACE)
    (hmem : ordinary s.nonRam s.bufAddr.toNat (rangeLength hw i s.bufLen.toNat) = false) :
    exec i s = .refused .notOrdinaryMemory := by
  rw [exec_eq_launch, launch, if_neg (by simp [hidle]), if_neg (Nat.not_lt.mpr hspace), if_neg (by simp [hmem])]

end Refusals

section Ranges

variable {cfg : Config} {i : Instr} {l : Nat}

/-- A chunk command owns one chunk, whatever `BUF_LEN` holds. -/
theorem rangeLength_chunk (hi : scopeIsBuffer i = false) : rangeLength cfg i l = cfg.chunkBytes := by
  rw [rangeLength, if_neg (by simp [hi])]

/-- A buffer command below the no-op floor owns nothing (R101). -/
theorem rangeLength_short (hi : scopeIsBuffer i = true) (h : l < cfg.chunkBytes) : rangeLength cfg i l = 0 := by
  rw [rangeLength, if_pos hi, if_pos h]

end Ranges

/-- Below the no-op floor the range is in order wherever `BUF_ADDR` points (R47, R101). -/
theorem rangeOk_short {cfg : Config} {i : Instr} {s : State} (hi : scopeIsBuffer i = true)
    (h : s.bufLen.toNat < cfg.chunkBytes) : RangeOk cfg i s := by
  rw [RangeOk, rangeLength_short hi h]
  exact ⟨Nat.le_of_lt s.bufAddr.isLt, ordinary_zero _ _⟩

end Sys2Proof.Machine
end

section
/-! A command's run as the list of its engine actions: what the sequencer notes between chunk operations does not reach
the datapath (R50, R104, R106). -/

namespace Sys2Proof.Machine

/-- What an engine action reads: the key, `V0`, `V1` and memory. -/
def State.datapath (s : State) : Key × Word × Word × Memory := (s.k, s.v0, s.v1, s.mem)

theorem State.datapath_eq_iff (s t : State) :
    s.datapath = t.datapath ↔ s.k = t.k ∧ s.v0 = t.v0 ∧ s.v1 = t.v1 ∧ s.mem = t.mem := by
  simp [State.datapath]

/-- One engine action does the same to equal datapaths. -/
theorem EngineOp.run_datapath_congr (cfg : Config) {s t : State} (h : s.datapath = t.datapath) (op : EngineOp) :
    (EngineOp.run cfg s op).datapath = (EngineOp.run cfg t op).datapath := by
  obtain ⟨hk, h0, h1, hm⟩ := (State.datapath_eq_iff s t).mp h
  cases op <;> simp [State.datapath, EngineOp.run, hk, h0, h1, hm]

/-- A list of engine actions does the same to equal datapaths. -/
theorem runOps_datapath_congr (cfg : Config) (ops : List EngineOp) {s t : State} (h : s.datapath = t.datapath) :
    (runOps cfg ops s).datapath = (runOps cfg ops t).datapath := by
  induction ops generalizing s t with
  | nil => exact h
  | cons op ops ih => exact ih (EngineOp.run_datapath_congr cfg h op)

/-- The actions of the first `n` aligned chunks, in ascending order (R104, R106). -/
def alignedOps (cfg : Config) (d : Dir) (a n : Nat) : List EngineOp :=
  ((List.range n).map fun i => a + i * cfg.chunkBytes).flatMap (chunkOps cfg d)

/-- The actions of the tail window, when there is one (R102). -/
def windowOps (cfg : Config) (d : Dir) (a l : Nat) : List EngineOp :=
  if tailPass cfg l then chunkOps cfg d (windowAddr cfg a l) else []

section CommandOps

variable {cfg : Config} {l : Nat} (a : Nat)

/-- A chunk command's actions are those of one chunk (R90, R91). -/
theorem commandOps_chunk {i : Instr} (hi : scopeIsBuffer i = false) :
    commandOps cfg i a l = chunkOps cfg (dirOf i) a := by
  rw [commandOps, if_neg (by simp [hi])]

/-- A buffer command below the no-op floor has no engine action (R101). -/
theorem commandOps_short {i : Instr} (hi : scopeIsBuffer i = true) (h : l < cfg.chunkBytes) :
    commandOps cfg i a l = [] := by
  simp [commandOps, hi, chunkAddrs, h]

theorem windowOps_eq_flatMap (d : Dir) :
    windowOps cfg d a l = (if tailPass cfg l then [windowAddr cfg a l] else []).flatMap (chunkOps cfg d) := by
  rw [windowOps]
  split <;> simp

/-- `ENCB`: the aligned chunks, then the window (R104). -/
theorem commandOps_encb (h : cfg.chunkBytes ≤ l) :
    commandOps cfg .encb a l = alignedOps cfg .fwd a (alignedChunks cfg l) ++ windowOps cfg .fwd a l := by
  simp [commandOps, scopeIsBuffer, chunkAddrs, Nat.not_lt.mpr h, dirOf, alignedOps, windowOps_eq_flatMap]

/-- `DECB`: the window, then the aligned chunks (R106). -/
theorem commandOps_decb (h : cfg.chunkBytes ≤ l) :
    commandOps cfg .decb a l = windowOps cfg .inv a l ++ alignedOps cfg .inv a (alignedChunks cfg l) := by
  simp [commandOps, scopeIsBuffer, chunkAddrs, Nat.not_lt.mpr h, dirOf, alignedOps, windowOps_eq_flatMap]

end CommandOps

section Datapath

variable (cfg : Config) (s : State)

/-- The aligned pass does what its chunks' actions do. -/
theorem alignedPass_datapath (d : Dir) (a n : Nat) :
    (alignedPass cfg d a n s).datapath = (runOps cfg (alignedOps cfg d a n) s).datapath := by
  induction n with
  | zero => rfl
  | succ n ih =>
    have hlast : alignedOps cfg d a (n + 1) = alignedOps cfg d a n ++ chunkOps cfg d (a + n * cfg.chunkBytes) := by
      simp [alignedOps, List.range_succ]
    rw [hlast, runOps_append]
    exact runOps_datapath_congr cfg (chunkOps cfg d (a + n * cfg.chunkBytes)) ih

/-- `ENCB` of at least a chunk does what its actions do (R104). -/
theorem runEncb_datapath (h : cfg.chunkBytes ≤ s.bufLen.toNat) :
    (runEncb cfg s).datapath =
      (runOps cfg (commandOps cfg .encb s.bufAddr.toNat s.bufLen.toNat) s).datapath := by
  have hpass : (alignedPass cfg .fwd s.bufAddr.toNat (alignedChunks cfg s.bufLen.toNat) (encbLatched s)).datapath =
      (runOps cfg (alignedOps cfg .fwd s.bufAddr.toNat (alignedChunks cfg s.bufLen.toNat)) s).datapath :=
    (alignedPass_datapath ..).trans (runOps_datapath_congr cfg _ rfl)
  rw [runEncb_long cfg s h, commandOps_encb _ h, runOps_append, windowOps]
  simp only
  split
  · exact runOps_datapath_congr cfg _ hpass
  · exact hpass

/-- `DECB` of at least a chunk does what its actions do (R106). -/
theorem runDecb_datapath (h : cfg.chunkBytes ≤ s.bufLen.toNat) :
    (runDecb cfg s).datapath =
      (runOps cfg (commandOps cfg .decb s.bufAddr.toNat s.bufLen.toNat) s).datapath := by
  have hwindow : (decbWindowed cfg s).datapath =
      (runOps cfg (windowOps cfg .inv s.bufAddr.toNat s.bufLen.toNat) s).datapath := by
    rw [decbWindowed, windowOps]
    split
    · exact runOps_datapath_congr cfg _ rfl
    · rfl
  rw [runDecb_long cfg s h, commandOps_decb _ h, runOps_append]
  exact (alignedPass_datapath ..).trans (runOps_datapath_congr cfg _ hwindow)

/-- Every command leaves in the datapath what its engine actions leave there. -/
theorem runCommand_datapath (i : Instr) :
    (runCommand cfg i s).datapath = (runOps cfg (commandOps cfg i s.bufAddr.toNat s.bufLen.toNat) s).datapath := by
  obtain ⟨hi, hrun⟩ | ⟨hi, hl, hrun⟩ | ⟨rfl, hl, hrun⟩ | ⟨rfl, hl, hrun⟩ := runCommand_cases cfg i s <;> rw [hrun]
  · rw [commandOps_chunk _ hi]
    exact runOps_datapath_congr cfg _ rfl
  · rw [commandOps_short _ hi hl]
    rfl
  · exact runEncb_datapath cfg s hl
  · exact runDecb_datapath cfg s hl

end Datapath

end Sys2Proof.Machine
end

section
/-! The settled statements about memory: who may touch which bytes, and in which order. -/

namespace Sys2Proof.Machine

/-- Settles O14: a range past the top is the first thing an idle block looks at, and below the no-op floor there is
no range. -/
theorem rangePastTopIsRefused : Obligations.RangePastTopIsRefused := by
  intro s hidle
  refine ⟨fun htop => ?_, fun hl htop => ?_, fun hshort => ?_⟩
  · have hchunk (i : Instr) (hi : scopeIsBuffer i = false) : exec i s = .refused .rangeViolation :=
      exec_rangeViolation hidle (by rw [rangeLength_chunk hi]; exact htop)
    exact ⟨hchunk .encc rfl, hchunk .decc rfl⟩
  · have hbuffer (i : Instr) (hi : scopeIsBuffer i = true) : exec i s = .refused .rangeViolation :=
      exec_rangeViolation hidle (by rw [rangeLength_long hi hl]; exact htop)
    exact ⟨hbuffer .encb rfl, hbuffer .decb rfl⟩
  · have hnoop (i : Instr) (hi : scopeIsBuffer i = true) : ∃ t, exec i s = .next t :=
      ⟨_, (exec_next_iff ..).mpr ⟨hidle, rangeOk_short hi hshort, rfl⟩⟩
    exact ⟨hnoop .encb rfl, hnoop .decb rfl⟩

/-- Settles O15: the shared byte makes the range not ordinary memory. -/
theorem nonMemoryRangeIsRefused : Obligations.NonMemoryRangeIsRefused := by
  intro s i r b hidle hr hlo hhi ha hb hspace
  exact exec_notOrdinaryMemory hidle hspace (ordinary_eq_false hr ⟨ha, hb⟩ ⟨hlo, hhi⟩)

/-- Settles O22: memory is a part of the datapath. -/
theorem commandRunsItsEngineActionsInOrder : Obligations.CommandRunsItsEngineActionsInOrder := by
  intro cfg i s _
  obtain ⟨-, -, -, hmem⟩ := (State.datapath_eq_iff ..).mp (runCommand_datapath cfg s i)
  exact hmem

/-- Settles O30: such an access is not a defined one. -/
theorem narrowRegisterAccessIsRefused : Obligations.NarrowRegisterAccessIsRefused := by
  intro s rest offset width v h
  have hacc : ¬ accessWf offset width = true := by
    rw [accessWf_iff]
    exact not_and_or.mpr h
  exact ⟨fun hscript => by rw [step_cons hscript, hostAct, if_neg hacc],
    fun hscript => by rw [step_cons hscript, hostAct, if_neg hacc]⟩

/-- Settles O32: an access that covers such a byte breaks the host's duty. -/
theorem hostIsShutOutOfTheBusyRange : Obligations.HostIsShutOutOfTheBusyRange := by
  intro s rest a n bs b hbusy hn hlo hhi ha hb
  subst hn
  have hrange : s.latA.toNat ≤ b ∧ b < s.latA.toNat + s.busyLength hw :=
    ⟨hlo, by rw [busyLength_running hbusy]; exact hhi⟩
  have hbad : ¬ DataAccessOk hw { s with script := rest } a.toNat bs.length :=
    not_dataAccessOk_of_busyByte hrange ⟨ha, hb⟩
  refine ⟨fun hscript => ?_, fun hscript => ?_⟩
  · rw [step_cons hscript]
    exact hostPoke_refused hbad
  · rw [step_cons hscript]
    exact hostPeek_refused hbad

/-- Settles O34: an allowed `POKE` is a `MemWrite`, an allowed `PEEK` a `MemRead`. -/
theorem hostDataAccess : Obligations.HostDataAccess := by
  intro s rest a hm
  refine ⟨fun bs hscript haccess => ?_, fun n hscript haccess => ?_⟩
  · refine ⟨_, (step_cons hscript).trans (hostPoke_allowed haccess), rfl, ?_⟩
    exact Memory.replaces_memWrite hm a.toNat bs
  · refine ⟨_, (step_cons hscript).trans (hostPeek_allowed haccess), Memory.length_memRead .., fun j hj => ?_⟩
    exact Memory.getD_memRead s.mem a.toNat n j hj 0

/-- Settles O35: four bytes and a word carry the same 32 bits in either order. -/
theorem byteOrderConversions : Obligations.ByteOrderConversions := by
  refine ⟨fun b0 b1 b2 b3 => ?_, fun w => ⟨rfl, rfl⟩, fun cfg m a w hm => ?_⟩
  · exact ⟨toNat_wordOfBytes_le b0 b1 b2 b3, toNat_wordOfBytes_be b0 b1 b2 b3,
      fun bo => bytesOfWord_wordOfBytes bo b0 b1 b2 b3⟩
  · exact ⟨Memory.loadWord_storeWord hm cfg a w, Memory.replaces_memWrite hm a _⟩

end Sys2Proof.Machine
end

section
/-! The opcode map read in both directions (R60, R61): the legal words are the four encodings, every other word is an
illegal command (R62). -/

namespace Sys2Proof.Machine

variable {w : Word} {s : State} {rest : List HostAction}

/-- The reserved field is the word without its two low bits (R60). -/
theorem toNat_reservedField (w : Word) : (w.extractLsb' 2 30).toNat = w.toNat / 4 := by
  rw [BitVec.extractLsb'_toNat, Nat.shiftRight_eq_div_pow]
  have := w.isLt
  omega

/-- The words with a zero reserved field are the four lowest. -/
theorem reservedField_eq_zero_iff (w : Word) : w.extractLsb' 2 30 = 0 ↔ w.toNat < 4 := by
  rw [← BitVec.toNat_inj, toNat_reservedField]
  exact Nat.div_eq_zero_iff_lt (by decide)

/-- A word with a nonzero reserved field is no command, and the error keeps it (R61, R62). -/
theorem decode_reserved (h : w.extractLsb' 2 30 ≠ 0) : decode w = .error (.illegalCommand w) := by
  rw [decode, if_neg]
  simpa only [CommandFields.wf, CommandFields.ofWord, beq_iff_eq] using h

/-- The four lowest words are the encodings of the four commands (R61). -/
theorem exists_encode_of_lt_four (h : w.toNat < 4) : ∃ i, w = encode i := by
  obtain h | h | h | h : w.toNat = 0 ∨ w.toNat = 1 ∨ w.toNat = 2 ∨ w.toNat = 3 := by omega
  · exact ⟨.encc, BitVec.eq_of_toNat_eq h⟩
  · exact ⟨.decc, BitVec.eq_of_toNat_eq h⟩
  · exact ⟨.encb, BitVec.eq_of_toNat_eq h⟩
  · exact ⟨.decb, BitVec.eq_of_toNat_eq h⟩

/-- A legal word is the encoding of some command, and an encoding decodes to its own command only. -/
theorem eq_encode_of_decode {i : Instr} (h : decode w = .ok i) : w = encode i := by
  have hlegal : w.extractLsb' 2 30 = 0 := by
    by_contra hreserved
    cases h.symm.trans (decode_reserved hreserved)
  obtain ⟨j, rfl⟩ := exists_encode_of_lt_four ((reservedField_eq_zero_iff w).mp hlegal)
  cases h.symm.trans (decode_encode j)
  rfl

/-- `IllegalCommand` writes no bit of `STATUS` above `ILL` (R30, R141). -/
theorem statusIllegal_kept (w : Word) (j : Nat) (hj : illBit < j) : (statusIllegal w).getLsbD j = w.getLsbD j := by
  obtain ⟨-, -, hkept⟩ := status_reserved_kept w j hj
  exact hkept

/-- An illegal word written to the `CMD` of an idle block is recorded (R141). -/
theorem writeCmd_illegal {e : DecodeError} (hidle : s.busy = false) (h : decode w = .error e) :
    writeCmd w s = .next s.illegalCommand := by
  obtain ⟨hbusy, -⟩ | ⟨-, -, -, hwrite⟩ | ⟨-, i, hi, -⟩ := writeCmd_cases w s
  · cases hidle.symm.trans hbusy
  · exact hwrite
  · cases h.symm.trans hi

/-- The host's write of a word from 4 up to `CMD` of an idle block is `IllegalCommand` (R62, R141). -/
theorem step_illegal (hscript : s.script = .wr .cmd w :: rest) (hidle : s.busy = false) (hw4 : 4 ≤ w.toNat) :
    step s = .next (State.illegalCommand { s with script := rest }) := by
  have hreserved : w.extractLsb' 2 30 ≠ 0 := mt (reservedField_eq_zero_iff w).mp (Nat.not_lt.mpr hw4)
  exact (step_cons hscript).trans (writeCmd_illegal hidle (decode_reserved hreserved))

/-- A command whose range is in order runs to `DONE` from any idle block, and what is on record in `ILL` stays. -/
theorem exec_completes {i : Instr} (hidle : s.busy = false) (hrange : RangeOk hw i s) :
    ∃ u, exec i s = .next u ∧ u.done = true ∧ u.ill = s.ill :=
  ⟨_, (exec_next_iff ..).mpr ⟨hidle, hrange, rfl⟩, (runCommand_completed hw i s).done,
    (runCommand_frame hw i s).ill_eq⟩

end Sys2Proof.Machine
end

section
/-! The pseudo-instructions of the script level (R66, R67): runs of a host script that sets the operand registers of an
idle block and then writes `CMD`, and a `WAIT` that finds the block done. -/

namespace Sys2Proof.Machine

/-- A run goes on from the next state of its first step. -/
theorem run_succ_of_next {M : Host.Core} {s t : M.State} (h : M.step s = .next t) (n : Nat) :
    M.run (n + 1) s = M.run n t := by
  rw [Host.Core.run, h]

/-- A run of one step is the step. -/
theorem run_one (M : Host.Core) (s : M.State) : M.run 1 s = M.step s := by
  rw [Host.Core.run]
  cases M.step s <;> rfl

/-- `run_succ_of_next` of this machine, where `core.State` is `State`. -/
theorem run_succ_of_step {s t : State} (h : step s = .next t) (n : Nat) :
    Host.Core.run core (n + 1) s = Host.Core.run core n t :=
  run_succ_of_next (M := core) (s := s) (t := t) h n

variable {s : State} {a l : Word} {rest : List HostAction}

theorem step_wr_bufAddr (hscript : s.script = .wr .bufAddr a :: rest) (hidle : s.busy = false) :
    step s = .next { s with script := rest, bufAddr := a } :=
  (step_regWrite hscript rfl).trans (writeRegister_bufAddr a hidle)

theorem step_wr_bufLen (hscript : s.script = .wr .bufLen l :: rest) (hidle : s.busy = false) :
    step s = .next { s with script := rest, bufLen := l } :=
  (step_regWrite hscript rfl).trans (writeRegister_bufLen l hidle)

/-- A script of one command word runs that command, refusals included. -/
theorem run_wr_cmd {i : Instr} (hscript : s.script = [.wr .cmd (encode i)]) :
    Host.Core.run core 1 s = exec i { s with script := [] } := by
  have hstep : step s = exec i { s with script := [] } :=
    (step_cons hscript).trans (writeCmd_of_decode (decode_encode i) _)
  exact (run_one core s).trans hstep

/-- The expansion of `ENCC` and `DECC` (R67). -/
theorem run_setAddr_cmd {i : Instr} (hscript : s.script = [.wr .bufAddr a, .wr .cmd (encode i)])
    (hidle : s.busy = false) : Host.Core.run core 2 s = exec i { s with bufAddr := a, script := [] } :=
  (run_succ_of_step (step_wr_bufAddr hscript hidle) 1).trans (run_wr_cmd rfl)

/-- The same with `BUF_LEN`, the last two actions of the longer expansions. -/
theorem run_setLen_cmd {i : Instr} (hscript : s.script = [.wr .bufLen l, .wr .cmd (encode i)])
    (hidle : s.busy = false) : Host.Core.run core 2 s = exec i { s with bufLen := l, script := [] } :=
  (run_succ_of_step (step_wr_bufLen hscript hidle) 1).trans (run_wr_cmd rfl)

/-- The expansion of `ENCB` and `DECB` (R67). -/
theorem run_setAddr_setLen_cmd {i : Instr}
    (hscript : s.script = [.wr .bufAddr a, .wr .bufLen l, .wr .cmd (encode i)]) (hidle : s.busy = false) :
    Host.Core.run core 3 s = exec i { s with bufAddr := a, bufLen := l, script := [] } :=
  (run_succ_of_step (step_wr_bufAddr hscript hidle) 2).trans (run_setLen_cmd rfl hidle)

/-- A poll that reads `DONE` as 1 ends the wait (R67). -/
theorem hostWait_done (cfg : Config) (hdone : s.done = true) :
    hostWait cfg s = .next (s.respond (.reg 0x04 s.status)) := by
  rw [hostWait, if_pos hdone]
  rfl

/-- `WAIT` on a completed block is one read of `STATUS` (R67). -/
theorem step_wait_done (hscript : s.script = .wait :: rest) (hdone : s.done = true) :
    step s = .next { s with script := rest, responses := s.responses ++ [.reg 0x04 s.status] } :=
  (step_cons hscript).trans (hostWait_done hw hdone)

end Sys2Proof.Machine
end

section
/-! The settled statements about the command words and the script level. -/

namespace Sys2Proof.Machine

/-- Settles O4: the opcode map has no word twice and no command without a word. -/
theorem decodeEncodeAgree : Obligations.DecodeEncodeAgree :=
  fun _ i => ⟨eq_encode_of_decode, fun h => h ▸ decode_encode i⟩

/-- Settles O6: the step is `IllegalCommand`, which leaves the block idle and its operands as they were. -/
theorem illegalCommandIsRecorded : Obligations.IllegalCommandIsRecorded := by
  intro s rest w hscript hidle hw4
  have hill : (State.illegalCommand { s with script := rest }).ill = true := ill_illegalCommand _
  have hbusy : (State.illegalCommand { s with script := rest }).busy = false := (busy_illegalCommand _).trans hidle
  refine ⟨_, step_illegal hscript hidle hw4, rfl, hill, done_illegalCommand _, hbusy,
    statusIllegal_kept s.status, fun i hrange => ?_⟩
  obtain ⟨u, hexec, hdone, hkept⟩ := exec_completes hbusy hrange
  exact ⟨u, hexec, hdone, hkept.trans hill⟩

/-- Settles O33, one expansion for the chunk commands and one for the buffer commands. -/
theorem pseudoInstructionsExpand : Obligations.PseudoInstructionsExpand :=
  fun _ _ _ hidle => ⟨run_setAddr_cmd (i := .encc) rfl hidle, run_setAddr_cmd (i := .decc) rfl hidle,
    run_setAddr_setLen_cmd (i := .encb) rfl hidle, run_setAddr_setLen_cmd (i := .decb) rfl hidle,
    fun _ => step_wait_done⟩

/-- Settles O3: the four rows are the encodings of the commands. -/
theorem opcodeMapDecodes : Obligations.OpcodeMapDecodes :=
  ⟨decode_encode .encc, decode_encode .decc, decode_encode .encb, decode_encode .decb, fun _ => decode_reserved⟩

end Sys2Proof.Machine
end

section
/-! The rounds as iterates of their body, and the round sum they carry (R81, R83, R84). -/

namespace Sys2Proof.Machine

/-- Subtraction undoes addition (R86). -/
@[simp] theorem sub32_add32 (a b : Word) : sub32 (add32 a b) b = a := BitVec.add_sub_cancel a b

/-- Addition undoes subtraction (R86). -/
@[simp] theorem add32_sub32 (a b : Word) : add32 (sub32 a b) b = a := BitVec.sub_add_cancel a b

theorem rounds_eq_iterate (body : RoundRegs → RoundRegs) (n : Nat) : rounds body n = body^[n] := by
  induction n with
  | zero => rfl
  | succ n ih =>
    rw [Function.iterate_succ, ← ih]
    rfl

/-- The last round comes after all the others. -/
theorem rounds_succ_last (body : RoundRegs → RoundRegs) (n : Nat) (r : RoundRegs) :
    rounds body (n + 1) r = body (rounds body n r) := by
  rw [rounds_eq_iterate, rounds_eq_iterate, Function.iterate_succ_apply']

section RoundSum

variable (f : Word → Word → Word → Word → Word) (k : Key)

/-- A forward round adds `DELTA` to the sum (R83). -/
theorem sum_rounds_encRound (n : Nat) (r : RoundRegs) :
    (rounds (encRound f k) n r).sum = r.sum + BitVec.ofNat 32 n * Config.DELTA := by
  induction n with
  | zero => simp [rounds]
  | succ n ih =>
    rw [rounds_succ_last, BitVec.ofNat_add, BitVec.add_mul, ← BitVec.add_assoc, ← ih, BitVec.one_mul]
    rfl

/-- An inverse round takes `DELTA` off the sum (R84). -/
theorem sum_rounds_decRound (n : Nat) (r : RoundRegs) :
    (rounds (decRound f k) n r).sum = r.sum - BitVec.ofNat 32 n * Config.DELTA := by
  induction n with
  | zero => simp [rounds]
  | succ n ih =>
    rw [rounds_succ_last, BitVec.ofNat_add, BitVec.add_mul, sub_add_eq_sub_sub, ← ih, BitVec.one_mul]
    rfl

/-- The sum after `n` of the rounds of `EncBlock` (R81). -/
theorem sum_encRounds (v0 v1 : Word) (n : Nat) :
    (rounds (encRound f k) n ⟨v0, v1, 0⟩).sum = BitVec.ofNat 32 n * Config.DELTA :=
  (sum_rounds_encRound f k n _).trans (BitVec.zero_add _)

/-- The sum after `n` of the rounds of `DecBlock`, which starts at `32 * DELTA` (R81). -/
theorem sum_decRounds (v0 v1 : Word) {n : Nat} (hn : n ≤ 32) :
    (rounds (decRound f k) n ⟨v0, v1, Config.DEC_SUM_INIT⟩).sum = BitVec.ofNat 32 (32 - n) * Config.DELTA := by
  have hinit : Config.DEC_SUM_INIT = BitVec.ofNat 32 (32 - n + n) * Config.DELTA := by
    rw [Nat.sub_add_cancel hn]
    decide
  rw [sum_rounds_decRound, hinit, BitVec.ofNat_add, BitVec.add_mul, BitVec.add_sub_cancel]

/-- A forward round mixes `V1` and its own sum into `V0` (R83). -/
theorem v0_rounds_encRound_succ (n : Nat) (r : RoundRegs) :
    (rounds (encRound f k) (n + 1) r).v0 =
      (rounds (encRound f k) n r).v0 +
        f (rounds (encRound f k) n r).v1 (rounds (encRound f k) (n + 1) r).sum k.k0 k.k1 := by
  rw [rounds_succ_last]
  rfl

/-- An inverse round takes the mix of `V0` and the sum it starts with off `V1` (R84). -/
theorem v1_rounds_decRound_succ (n : Nat) (r : RoundRegs) :
    (rounds (decRound f k) (n + 1) r).v1 =
      (rounds (decRound f k) n r).v1 -
        f (rounds (decRound f k) n r).v0 (rounds (decRound f k) n r).sum k.k2 k.k3 := by
  rw [rounds_succ_last]
  rfl

end RoundSum

end Sys2Proof.Machine
end

section
/-! The two directions undo each other: rounds, block transforms, byte strings, chunk operations (R85, R89). -/

namespace Sys2Proof.Machine

/-- The direction that undoes a direction (R60). -/
def Dir.opposite : Dir → Dir
  | .fwd => .inv
  | .inv => .fwd

section Rounds

variable (f : Word → Word → Word → Word → Word) (k : Key)

/-- An inverse round takes off what the forward round added, from the same words and sum (R83, R84). -/
theorem decRound_leftInverse_encRound : Function.LeftInverse (decRound f k) (encRound f k) := fun r => by
  simp [decRound, encRound]

theorem encRound_leftInverse_decRound : Function.LeftInverse (encRound f k) (decRound f k) := fun r => by
  simp [decRound, encRound]

end Rounds

theorem rounds_leftInverse {g h : RoundRegs → RoundRegs} (hgh : Function.LeftInverse g h) (n : Nat) :
    Function.LeftInverse (rounds g n) (rounds h n) := by
  rw [rounds_eq_iterate, rounds_eq_iterate]
  exact hgh.iterate n

section BlockTransform

variable {cfg : Config} {f : Word → Word → Word → Word → Word} (hf : cfg.roundFn = roundFnOf f)
include hf

/-- A block transform ends with the sum its opposite starts with (R83, R84). -/
theorem sum_blockTransform (d : Dir) (k : Key) (v0 v1 : Word) :
    (blockTransform cfg d k v0 v1).sum = finalSum d := by
  cases d with
  | fwd =>
    rw [blockTransform, encBlock, hf]
    exact (sum_encRounds f k v0 v1 32).trans (by decide)
  | inv =>
    rw [blockTransform, decBlock, hf]
    exact (sum_decRounds f k v0 v1 (Nat.le_refl 32)).trans (by decide)

/-- `DecBlock` runs the rounds of `EncBlock` backwards from where they ended, sum included (R85). -/
theorem decBlock_encBlock (k : Key) (v0 v1 : Word) :
    decBlock cfg k (encBlock cfg k v0 v1).v0 (encBlock cfg k v0 v1).v1 = ⟨v0, v1, 0⟩ := by
  have hsum : Config.DEC_SUM_INIT = (encBlock cfg k v0 v1).sum := (sum_blockTransform hf .fwd k v0 v1).symm
  rw [decBlock, hsum, encBlock, hf]
  exact rounds_leftInverse (decRound_leftInverse_encRound f k) Config.ROUNDS _

/-- `EncBlock` runs the rounds of `DecBlock` backwards from where they ended, sum included (R85). -/
theorem encBlock_decBlock (k : Key) (v0 v1 : Word) :
    encBlock cfg k (decBlock cfg k v0 v1).v0 (decBlock cfg k v0 v1).v1 = ⟨v0, v1, Config.DEC_SUM_INIT⟩ := by
  have hsum : 0#32 = (decBlock cfg k v0 v1).sum := (sum_blockTransform hf .inv k v0 v1).symm
  rw [encBlock, hsum, decBlock, hf]
  exact rounds_leftInverse (encRound_leftInverse_decRound f k) Config.ROUNDS _

/-- The opposite transform gives the words back and the sum it ends with (R85). -/
theorem blockTransform_opposite (d : Dir) (k : Key) (v0 v1 : Word) :
    blockTransform cfg d.opposite k (blockTransform cfg d k v0 v1).v0 (blockTransform cfg d k v0 v1).v1 =
      ⟨v0, v1, finalSum d.opposite⟩ := by
  cases d with
  | fwd => exact decBlock_encBlock hf k v0 v1
  | inv => exact encBlock_decBlock hf k v0 v1

end BlockTransform

section Strings

/-- The word at an offset of the second of two strings. -/
theorem wordAt_append_right (bo : ByteOrder) (xs ys : List Byte) (i : Nat) :
    wordAt bo (xs ++ ys) (xs.length + i) = wordAt bo ys i := by
  simp [wordAt, Nat.add_assoc, List.getElem?_append_right]

/-- The two words of a transformed block are the transform's `V0` and `V1` (R83, R84, R87). -/
theorem wordAt_blockString (cfg : Config) (d : Dir) (k : Key) (bs : List Byte) :
    let r := blockTransform cfg d k (wordAt cfg.byteOrder bs 0) (wordAt cfg.byteOrder bs 4)
    wordAt cfg.byteOrder (blockString cfg d k bs) 0 = r.v0 ∧ wordAt cfg.byteOrder (blockString cfg d k bs) 4 = r.v1 := by
  intro r
  have hhigh := wordAt_append_right cfg.byteOrder (bytesOfWord cfg.byteOrder r.v0) (bytesOfWord cfg.byteOrder r.v1) 0
  rw [length_bytesOfWord] at hhigh
  have hword := wordAt_bytesOfWord cfg.byteOrder r.v1 []
  rw [List.append_nil] at hword
  exact ⟨wordAt_bytesOfWord .., hhigh.trans hword⟩

/-- A block is the bytes of its two words (R42). -/
theorem bytesOfWord_wordAt (bo : ByteOrder) {bs : List Byte} (h : bs.length = Config.BLOCK_BYTES) :
    bytesOfWord bo (wordAt bo bs 0) ++ bytesOfWord bo (wordAt bo bs 4) = bs := by
  match bs, h with
  | [b0, b1, b2, b3, b4, b5, b6, b7], _ => simp [wordAt, bytesOfWord_wordOfBytes]

/-- Two maps of pieces undo each other when their piece functions do. -/
theorem mapPieces_leftInverse {c : Nat} {f g : List Byte → List Byte} (hf : ∀ bs, (f bs).length = c)
    (hgf : ∀ bs, bs.length = c → g (f bs) = bs) (n : Nat) {bs : List Byte} (h : bs.length = n * c) :
    mapPieces c g n (mapPieces c f n bs) = bs := by
  induction n generalizing bs with
  | zero => exact (List.length_eq_zero_iff.mp (by simpa using h)).symm
  | succ n ih =>
    rw [Nat.succ_mul] at h
    rw [mapPieces, mapPieces, List.take_left' (hf _), List.drop_left' (hf _), hgf _ (by simp; omega),
      ih (by simp; omega), List.take_append_drop]

variable {cfg : Config} {f : Word → Word → Word → Word → Word} (hf : cfg.roundFn = roundFnOf f)
include hf

theorem blockString_opposite (d : Dir) (k : Key) {bs : List Byte} (h : bs.length = Config.BLOCK_BYTES) :
    blockString cfg d.opposite k (blockString cfg d k bs) = bs := by
  obtain ⟨hlow, hhigh⟩ := wordAt_blockString cfg d k bs
  rw [blockString, hlow, hhigh, blockTransform_opposite hf]
  exact bytesOfWord_wordAt cfg.byteOrder h

theorem chunkString_opposite (d : Dir) (k : Key) {bs : List Byte}
    (h : bs.length = cfg.subblocks * Config.BLOCK_BYTES) :
    chunkString cfg d.opposite k (chunkString cfg d k bs) = bs :=
  mapPieces_leftInverse (length_blockString cfg d k) (fun _ => blockString_opposite hf d k) cfg.subblocks h

/-- A chunk operation and then its opposite at the same address leave memory as it was (R89). -/
theorem chunkOp_opposite_mem (d : Dir) (a : Nat) {s : State} (hm : Memory.wf s.mem = true) :
    (chunkOp cfg d.opposite a (chunkOp cfg d a s)).mem = s.mem := by
  have hlen := length_chunkString cfg d s.k (Memory.memRead s.mem a (cfg.subblocks * Config.BLOCK_BYTES))
  have hread := Memory.memRead_memWrite_same hm a
    (chunkString cfg d s.k (Memory.memRead s.mem a (cfg.subblocks * Config.BLOCK_BYTES)))
  rw [hlen] at hread
  rw [chunkOp_mem cfg d.opposite a _ (wf_chunkOp cfg d a s hm), chunkOp_mem cfg d a s hm, hread, chunkOp_k,
    chunkString_opposite hf d s.k (Memory.length_memRead ..),
    Memory.memWrite_memWrite_same hm a (by rw [hlen, Memory.length_memRead]), Memory.memWrite_memRead hm]

end Strings

end Sys2Proof.Machine
end

section
/-! The memory events of chunk operations (R43, R87, R88). -/

namespace Sys2Proof.Machine

/-- A well-formed chunk is a whole number of blocks (R11). -/
theorem wholeBlocks_of_wf {cfg : Config} (h : cfg.wf = true) :
    cfg.subblocks * Config.BLOCK_BYTES = cfg.chunkBytes := by
  rw [Config.wf, Bool.or_eq_true, beq_iff_eq, beq_iff_eq] at h
  obtain h | h := h <;> rw [Config.subblocks, h] <;> rfl

/-- A block's two words are loaded, then stored (R87, R88). -/
theorem accessesOf_blockOps (d : Dir) (a : Nat) :
    accessesOf (blockOps d a) = [.load a, .load (a + 4), .store a, .store (a + 4)] := rfl

theorem accessesOf_append (xs ys : List EngineOp) : accessesOf (xs ++ ys) = accessesOf xs ++ accessesOf ys :=
  List.filterMap_append

/-- A memory event of a block moves bytes of the block only. -/
theorem moves_blockOps {d : Dir} {a b : Nat} {e : Access} (he : e ∈ accessesOf (blockOps d a)) (hb : e.moves b) :
    a ≤ b ∧ b < a + Config.BLOCK_BYTES := by
  simp only [accessesOf_blockOps, List.mem_cons, List.not_mem_nil, or_false] at he
  obtain rfl | rfl | rfl | rfl := he <;> simp only [Access.moves, Config.BLOCK_BYTES] at hb ⊢ <;> omega

/-- The memory events of `n` sub-blocks move bytes of those sub-blocks only (R89). -/
theorem moves_subblockOps {d : Dir} {n a b : Nat} {e : Access} (he : e ∈ accessesOf (subblockOps d n a))
    (hb : e.moves b) : a ≤ b ∧ b < a + n * Config.BLOCK_BYTES := by
  induction n generalizing a with
  | zero => cases he
  | succ n ih =>
    rw [subblockOps, accessesOf_append, List.mem_append] at he
    rw [Nat.succ_mul]
    obtain he | he := he
    · have := moves_blockOps he hb
      omega
    · have := ih he
      omega

/-- The events of a chunk operation of this hardware, in order (R87, R88). -/
theorem accessesOf_chunkOps_hw (d : Dir) (a : Nat) :
    accessesOf (chunkOps hw d a) =
      [.load a, .load (a + 4), .store a, .store (a + 4),
       .load (a + 8), .load (a + 12), .store (a + 8), .store (a + 12)] := rfl

/-- The addresses of the four words of a 16-byte chunk. -/
def chunkWords (a : Nat) : List Nat := [a, a + 4, a + 8, a + 12]

/-- A chunk operation of this hardware loads the words of its chunk. -/
theorem load_mem_chunkOps_hw (d : Dir) (a x : Nat) : .load x ∈ accessesOf (chunkOps hw d a) ↔ x ∈ chunkWords a := by
  simp [accessesOf_chunkOps_hw, chunkWords]

/-- A chunk operation of this hardware stores the words of its chunk. -/
theorem store_mem_chunkOps_hw (d : Dir) (a x : Nat) : .store x ∈ accessesOf (chunkOps hw d a) ↔ x ∈ chunkWords a := by
  simp [accessesOf_chunkOps_hw, chunkWords]

/-- Every byte of a 16-byte chunk lies in exactly one of its words. -/
theorem exists_only_chunkWord {a b : Nat} (ha : a ≤ b) (hb : b < a + 16) :
    ∃ x, x ∈ chunkWords a ∧ x ≤ b ∧ b < x + 4 ∧ ∀ y, y ∈ chunkWords a → y ≤ b → b < y + 4 → y = x := by
  simp only [chunkWords, List.mem_cons, List.not_mem_nil, or_false]
  exact ⟨a + (b - a) / 4 * 4, by omega, by omega, by omega, by omega⟩

end Sys2Proof.Machine
end

section
/-! What the working registers hold after engine actions: the words, the sum and the count of the block stored last
(R83, R84, R93). -/

namespace Sys2Proof.Machine

/-- The word loaded from a string just written is the word of the string there (R41, R43). -/
theorem Memory.loadWord_memWrite {m : Memory} (h : wf m = true) (cfg : Config) (a : Nat) {bs : List Byte} {i : Nat}
    (hi : i + 4 ≤ bs.length) : loadWord cfg (memWrite m a bs) (a + i) = wordAt cfg.byteOrder bs i := by
  rw [← wordAt_memRead cfg _ a bs.length i hi, memRead_memWrite_same h]

/-- The working registers are as a transform in direction `d` and the stores of its block at `b` leave them. -/
structure HoldsBlock (cfg : Config) (d : Dir) (b : Nat) (t : State) : Prop where
  v0 : t.v0 = Memory.loadWord cfg t.mem b
  v1 : t.v1 = Memory.loadWord cfg t.mem (b + 4)
  sum : t.sum = finalSum d
  rnd : t.rnd = Config.ROUNDS

section HoldsBlock

variable {cfg : Config} {f : Word → Word → Word → Word → Word} (hf : cfg.roundFn = roundFnOf f) {s : State}
  (hm : Memory.wf s.mem = true)
include hf hm

theorem holdsBlock_blockOps (d : Dir) (a : Nat) : HoldsBlock cfg d a (runOps cfg (blockOps d a) s) := by
  have hwords (w : Nat) (hfit : w + 4 ≤ Config.BLOCK_BYTES) :=
    Memory.wordAt_memRead cfg s.mem a Config.BLOCK_BYTES w hfit
  obtain ⟨hlow, hhigh⟩ := wordAt_blockString cfg d s.k (Memory.memRead s.mem a Config.BLOCK_BYTES)
  rw [hwords 0 (by decide), hwords 4 (by decide)] at hlow hhigh
  have hstored (w : Nat) (hfit : w + 4 ≤ Config.BLOCK_BYTES) :=
    Memory.loadWord_memWrite hm cfg a (bs := blockString cfg d s.k (Memory.memRead s.mem a Config.BLOCK_BYTES))
      (i := w) (by rwa [length_blockString])
  rw [runOps_blockOps]
  constructor
  case v0 => exact hlow.symm.trans (hstored 0 (by decide)).symm
  case v1 => exact hhigh.symm.trans (hstored 4 (by decide)).symm
  case sum => exact sum_blockTransform hf d _ _ _
  case rnd => rfl

/-- Of `n + 1` sub-blocks the registers hold the last. -/
theorem holdsBlock_subblockOps (d : Dir) (n a : Nat) :
    HoldsBlock cfg d (a + n * Config.BLOCK_BYTES) (runOps cfg (subblockOps d (n + 1) a) s) := by
  induction n generalizing a s with
  | zero => simpa [subblockOps] using holdsBlock_blockOps hf hm d a
  | succ n ih =>
    have hfirst : Memory.wf (runOps cfg (blockOps d a) s).mem = true := by
      rw [runOps_blockOps]
      exact Memory.wf_memWrite hm _ _
    rw [subblockOps, runOps_append, Nat.succ_mul, Nat.add_comm (n * _), ← Nat.add_assoc]
    exact ih hfirst (a + Config.BLOCK_BYTES)

/-- A chunk operation leaves the chunk's last block in the registers (R93). -/
theorem holdsBlock_chunkOp (d : Dir) (a : Nat) {n : Nat} (hn : cfg.subblocks = n + 1) :
    HoldsBlock cfg d (a + n * Config.BLOCK_BYTES) (chunkOp cfg d a s) := by
  rw [chunkOp, chunkOps, hn]
  exact holdsBlock_subblockOps hf hm d n a

end HoldsBlock

end Sys2Proof.Machine
end

section
/-! The chunk commands of this hardware, from an idle state to their whole effect (R90, R91). -/

namespace Sys2Proof.Machine

variable {i : Instr} {s : State} (hi : scopeIsBuffer i = false)
include hi

/-- A chunk command is in order when its 16 bytes are inside the data space and ordinary memory (R46, R47). -/
theorem rangeOk_chunk (hspace : s.bufAddr.toNat + 16 ≤ Config.ADDR_SPACE)
    (hordinary : ordinary s.nonRam s.bufAddr.toNat 16 = true) : RangeOk hw i s := by
  rw [RangeOk, rangeLength_chunk hi, chunkBytes_hw]
  exact ⟨hspace, hordinary⟩

/-- The run of a chunk command is one chunk operation between two changes of `STATUS`, `OP`, `PHASE` and the latch. -/
theorem runCommand_chunkEffect (hm : Memory.wf s.mem = true) : ChunkCommandEffect i s (runCommand hw i s) := by
  have hcompleted := runCommand_completed hw i s
  have hframe := runCommand_frame hw i s
  rw [runCommand_chunk hi, runChunkCommand] at hcompleted hframe ⊢
  have hmem := chunkOp_mem hw (dirOf i) s.bufAddr.toNat ((s.started i).latchA.atPhase .single) hm
  simp only [hw_wholeBlocks, chunkBytes_hw, State.atPhase_k, State.latchA_k, State.started_k, State.atPhase_mem,
    State.latchA_mem, State.started_mem] at hmem
  have hregs := holdsBlock_chunkOp (cfg := hw) (f := mix) rfl (s := (s.started i).latchA.atPhase .single) hm
    (dirOf i) s.bufAddr.toNat subblocks_hw
  have hlen : (chunkString hw (dirOf i) s.k (Memory.memRead s.mem s.bufAddr.toNat 16)).length = 16 :=
    length_chunkString ..
  have hword (w : Nat) (hfit : w + 4 ≤ 16) :=
    Memory.loadWord_memWrite hm hw s.bufAddr.toNat (hfit.trans_eq hlen.symm)
  constructor
  case completed => exact hcompleted
  case frame => exact hframe
  case mem => rw [State.completed_mem, hmem]; exact Memory.replaces_memWrite hm _ _
  case v0 => rw [State.completed_v0, hregs.v0, hmem]; exact hword 8 (by decide)
  case v1 => rw [State.completed_v1, hregs.v1, hmem]; exact hword 12 (by decide)
  case sum => rw [State.completed_sum, hregs.sum]
  case rnd => rw [State.completed_rnd, hregs.rnd]; rfl
  case idx => simp
  case latA => simp
  case latL => simp

/-- From an idle state with its range in order a chunk command answers with its whole effect. -/
theorem exec_chunkEffect (hm : Memory.wf s.mem = true) (hidle : s.busy = false)
    (hspace : s.bufAddr.toNat + 16 ≤ Config.ADDR_SPACE) (hordinary : ordinary s.nonRam s.bufAddr.toNat 16 = true) :
    ∃ t, exec i s = .next t ∧ ChunkCommandEffect i s t :=
  ⟨_, (exec_next_iff ..).mpr ⟨hidle, rangeOk_chunk hi hspace hordinary, rfl⟩, runCommand_chunkEffect hi hm⟩

end Sys2Proof.Machine
end

section
/-! The settled statements about the rounds' arithmetic and sums. -/

namespace Sys2Proof.Machine

/-- Settles O17: the worked values by evaluation, the two laws for all words. -/
theorem arithmeticWorkedValues : Obligations.ArithmeticWorkedValues :=
  ⟨by decide, by decide, by decide, by decide, by decide, by decide, fun a b => ⟨sub32_add32 a b, add32_sub32 a b⟩⟩

/-- Settles O18: the sum is a multiple of `DELTA` that counts the rounds up or down. -/
theorem roundSumSchedule : Obligations.RoundSumSchedule := by
  intro f k v0 v1
  refine ⟨fun i hi => ⟨sum_encRounds f k v0 v1 i, sum_decRounds f k v0 v1 hi⟩, ?_, ?_, ?_⟩
  · rintro i - r rfl
    rw [v0_rounds_encRound_succ, sum_encRounds]
    rfl
  · rintro j hj r rfl
    have hsum : (rounds (decRound f k) j ⟨v0, v1, 0xC6EF3720⟩).sum = BitVec.ofNat 32 (32 - j) * 0x9E3779B9 :=
      sum_decRounds f k v0 v1 (Nat.le_of_lt hj)
    rw [v1_rounds_decRound_succ, hsum]
  · simp only [sum_encRounds]
    decide

/-- Settles O19: each transform runs the other's rounds backwards. -/
theorem blockTransformsAreInverse : Obligations.BlockTransformsAreInverse := by
  intro cfg f k v0 v1 hf
  refine ⟨?_, ?_⟩
  · simp only [decBlock_encBlock hf, and_self]
  · simp only [encBlock_decBlock hf, and_self]

/-- Settles O20: a chunk operation is one write of a string that its opposite maps back. -/
theorem chunkOperationsAreInverse : Obligations.ChunkOperationsAreInverse := by
  intro cfg f a s hcfg hf hm
  have hc := wholeBlocks_of_wf hcfg
  refine ⟨chunkOp_opposite_mem hf .fwd a hm, chunkOp_opposite_mem hf .inv a hm, fun d => ⟨?_, ?_, ?_⟩⟩
  · intro e he b hb
    rw [← hc]
    exact moves_subblockOps he hb
  · intro b hb
    exact read_chunkOp_outside cfg d a s hm b (by rwa [hc])
  · intro a' s' hm' hk hbytes
    have hsame : SameBuffer a' a cfg.chunkBytes s' s := ⟨hm', hm, hk, hbytes⟩
    exact (hsame.after_chunkOp hc d (o := 0) (by omega)).bytes

/-- Settles O21: the chunk's four words are the addresses of the loads and of the stores. -/
theorem chunkMemoryEvents : Obligations.ChunkMemoryEvents := by
  intro d a
  refine ⟨accessesOf_chunkOps_hw d a, fun b ha hb => ?_⟩
  simp only [load_mem_chunkOps_hw, store_mem_chunkOps_hw]
  exact ⟨exists_only_chunkWord ha hb, exists_only_chunkWord ha hb⟩

/-- Settles O9, a chunk command forward. -/
theorem enccEncryptsChunk : Obligations.EnccEncryptsChunk := fun _ => exec_chunkEffect rfl

/-- Settles O10, a chunk command backward. -/
theorem deccDecryptsChunk : Obligations.DeccDecryptsChunk := fun _ => exec_chunkEffect rfl

end Sys2Proof.Machine
end

section
/-! The closed forms of the buffer commands as two passes over the buffer's string, the aligned chunks and the tail
window (R102, R104 to R107), and the passes of the two directions undo each other (R108). -/

namespace Sys2Proof.Machine

section Pieces

variable (c : Nat) (f : List Byte → List Byte)

/-- The first `n` pieces of a string are made of its first `n * c` bytes. -/
theorem mapPieces_take (n : Nat) (bs : List Byte) : mapPieces c f n (bs.take (n * c)) = mapPieces c f n bs := by
  induction n generalizing bs with
  | zero => rfl
  | succ n ih =>
    rw [mapPieces, mapPieces, List.take_take, List.drop_take, Nat.succ_mul, Nat.add_sub_cancel, ih,
      Nat.min_eq_left (Nat.le_add_left c (n * c))]

/-- The pieces of a string after the first `m`. -/
theorem mapPieces_add (m n : Nat) (bs : List Byte) :
    mapPieces c f (m + n) bs = mapPieces c f m bs ++ mapPieces c f n (bs.drop (m * c)) := by
  induction m generalizing bs with
  | zero => simp [mapPieces]
  | succ m ih =>
    rw [Nat.add_right_comm, mapPieces, ih, mapPieces, List.append_assoc, List.drop_drop, Nat.succ_mul, Nat.add_comm c]

/-- Pieces of pieces are pieces. -/
theorem mapPieces_mapPieces (m n : Nat) (bs : List Byte) :
    mapPieces (m * c) (mapPieces c f m) n bs = mapPieces c f (n * m) bs := by
  induction n generalizing bs with
  | zero => rw [Nat.zero_mul, mapPieces, mapPieces]
  | succ n ih => rw [mapPieces, ih, mapPieces_take, Nat.succ_mul, Nat.add_comm, mapPieces_add]

end Pieces

/-- The aligned pass on a string: every full chunk is transformed, the tail is kept (R104, R106). -/
def alignedString (cfg : Config) (d : Dir) (k : Key) (bs : List Byte) : List Byte :=
  mapPieces cfg.chunkBytes (chunkString cfg d k) (alignedChunks cfg bs.length) bs ++
    bs.drop (alignedChunks cfg bs.length * cfg.chunkBytes)

/-- The window pass on a string: its last chunk is transformed (R102). -/
def windowString (cfg : Config) (d : Dir) (k : Key) (bs : List Byte) : List Byte :=
  bs.take (bs.length - cfg.chunkBytes) ++ chunkString cfg d k (bs.drop (bs.length - cfg.chunkBytes))

/-- The window pass of a string that ends in the chunk `last`. -/
theorem windowString_append (cfg : Config) (d : Dir) (k : Key) (front : List Byte) {last : List Byte}
    (h : last.length = cfg.chunkBytes) :
    windowString cfg d k (front ++ last) = front ++ chunkString cfg d k last := by
  have hlen : (front ++ last).length - cfg.chunkBytes = front.length := by
    rw [List.length_append, h, Nat.add_sub_cancel]
  rw [windowString, hlen, List.take_left, List.drop_left]

/-- The window pass of a string cut at its last full chunk: the window takes the tail and the end of that chunk. -/
theorem windowString_cut (cfg : Config) (d : Dir) (k : Key) (front : List Byte) {last tail : List Byte}
    (hlast : last.length = cfg.chunkBytes) (htail : tail.length < cfg.chunkBytes) :
    windowString cfg d k (front ++ (last ++ tail)) =
      front ++ (last.take tail.length ++ chunkString cfg d k (last.drop tail.length ++ tail)) := by
  have hwindow : (last.drop tail.length ++ tail).length = cfg.chunkBytes := by
    rw [List.length_append, List.length_drop, hlast, Nat.sub_add_cancel (Nat.le_of_lt htail)]
  have hsplit : front ++ (last ++ tail) = (front ++ last.take tail.length) ++ (last.drop tail.length ++ tail) := by
    rw [List.append_assoc, ← List.append_assoc (last.take _), List.take_append_drop]
  rw [hsplit, windowString_append cfg d k _ hwindow, List.append_assoc]

/-- A string of `n` chunks and a shorter tail has `n` aligned chunks (R102). -/
theorem alignedChunks_append {cfg : Config} {n : Nat} {front tail : List Byte}
    (hfront : front.length = n * cfg.chunkBytes) (htail : tail.length < cfg.chunkBytes) :
    alignedChunks cfg (front ++ tail).length = n := by
  rw [List.length_append, hfront, alignedChunks, Nat.add_comm, Nat.mul_comm,
    Nat.add_mul_div_left _ _ (Nat.zero_lt_of_lt htail), Nat.div_eq_of_lt htail, Nat.zero_add]

/-- The aligned pass of a string of `n` chunks and a shorter tail. -/
theorem alignedString_append {cfg : Config} (d : Dir) (k : Key) {n : Nat} {front tail : List Byte}
    (hfront : front.length = n * cfg.chunkBytes) (htail : tail.length < cfg.chunkBytes) :
    alignedString cfg d k (front ++ tail) =
      mapPieces cfg.chunkBytes (chunkString cfg d k) n front ++ tail := by
  rw [alignedString, alignedChunks_append hfront htail, mapPieces_append _ _ _ _ _ hfront, List.drop_left' hfront]

section Cut

variable {cfg : Config} {n : Nat} {front last tail : List Byte} (hfront : front.length = n * cfg.chunkBytes)
  (hlast : last.length = cfg.chunkBytes) (htail : tail.length < cfg.chunkBytes)

include hfront hlast in
/-- The pieces of `n` chunks and one more. -/
theorem mapPieces_snoc (g : List Byte → List Byte) :
    mapPieces cfg.chunkBytes g (n + 1) (front ++ last) = mapPieces cfg.chunkBytes g n front ++ g last := by
  rw [mapPieces_succ_last, mapPieces_append _ _ _ _ _ hfront, List.drop_left' hfront,
    List.take_of_length_le (Nat.le_of_eq hlast)]

include hfront hlast in
theorem length_snoc : (front ++ last).length = (n + 1) * cfg.chunkBytes := by
  rw [List.length_append, hfront, hlast, Nat.succ_mul]

include hfront hlast htail

/-- The chunks of a cut string: `q` is one more than the chunks in front of the last (R102). -/
theorem alignedChunks_cut : alignedChunks cfg (front ++ (last ++ tail)).length = n + 1 := by
  rw [← List.append_assoc, alignedChunks_append (length_snoc hfront hlast) htail]

/-- The tail length of a cut string (R102). -/
theorem tailLength_cut : (front ++ (last ++ tail)).length % cfg.chunkBytes = tail.length := by
  rw [← List.append_assoc, List.length_append, length_snoc hfront hlast, Nat.mul_comm, Nat.mul_add_mod,
    Nat.mod_eq_of_lt htail]

/-- The aligned pass of a cut string. -/
theorem alignedString_cut (d : Dir) (k : Key) :
    alignedString cfg d k (front ++ (last ++ tail)) =
      mapPieces cfg.chunkBytes (chunkString cfg d k) n front ++ (chunkString cfg d k last ++ tail) := by
  rw [← List.append_assoc, alignedString_append d k (length_snoc hfront hlast) htail, mapPieces_snoc hfront hlast,
    List.append_assoc]

/-- R105 with a window pass, on a cut plaintext. -/
theorem encString_cut (k : Key) (ht : tailPass cfg (front ++ (last ++ tail)).length = true) :
    encString cfg k (front ++ (last ++ tail)) =
      mapPieces cfg.chunkBytes (chunkString cfg .fwd k) n front ++
        ((chunkString cfg .fwd k last).take tail.length ++
          chunkString cfg .fwd k ((chunkString cfg .fwd k last).drop tail.length ++ tail)) := by
  have hlong : ¬ (front ++ (last ++ tail)).length < cfg.chunkBytes := by
    simp only [List.length_append, hlast]
    omega
  have hq := alignedChunks_cut hfront hlast htail
  rw [alignedChunks] at hq
  have hrest : (front ++ (last ++ tail)).drop ((n + 1) * cfg.chunkBytes) = tail := by
    rw [← List.append_assoc, List.drop_left' (length_snoc hfront hlast)]
  simp only [encString, if_neg hlong, ht, if_true, hq, tailLength_cut hfront hlast htail, Nat.add_sub_cancel, hrest,
    List.drop_left' hfront, List.take_left' hlast, mapPieces_append _ _ _ _ _ hfront, List.append_assoc]

/-- R107 with a window pass, on a cut ciphertext. -/
theorem decString_cut (k : Key) (ht : tailPass cfg (front ++ (last ++ tail)).length = true) :
    decString cfg k (front ++ (last ++ tail)) =
      let W := chunkString cfg .inv k (last.drop tail.length ++ tail)
      mapPieces cfg.chunkBytes (chunkString cfg .inv k) n front ++
        (chunkString cfg .inv k (last.take tail.length ++ W.take (cfg.chunkBytes - tail.length)) ++
          W.drop (cfg.chunkBytes - tail.length)) := by
  have hlong : ¬ (front ++ (last ++ tail)).length < cfg.chunkBytes := by
    simp only [List.length_append, hlast]
    omega
  have hq := alignedChunks_cut hfront hlast htail
  rw [alignedChunks] at hq
  have hwindow : (front ++ (last ++ tail)).drop ((front ++ (last ++ tail)).length - cfg.chunkBytes) =
      last.drop tail.length ++ tail := by
    have hoffset : (front ++ (last ++ tail)).length - cfg.chunkBytes = front.length + tail.length := by
      simp only [List.length_append, hlast]
      omega
    rw [hoffset, List.drop_append, List.drop_eq_nil_of_le (Nat.le_add_right _ _), List.nil_append,
      Nat.add_sub_cancel_left, List.drop_append_of_le_length (Nat.le_of_lt (htail.trans_eq hlast.symm))]
  simp only [decString, if_neg hlong, ht, if_true, hq, tailLength_cut hfront hlast htail, Nat.add_sub_cancel, hwindow,
    List.drop_left' hfront, mapPieces_append _ _ _ _ _ hfront, List.append_assoc,
    List.take_append_of_le_length (Nat.le_of_lt (htail.trans_eq hlast.symm))]

end Cut

/-- A string of at least a chunk as R105 and R107 cut it: its first `q - 1` chunks, its last full chunk, its tail. -/
theorem exists_cut {c : Nat} (hpos : 0 < c) {bs : List Byte} (h : c ≤ bs.length) :
    ∃ n front last tail, bs = front ++ (last ++ tail) ∧ front.length = n * c ∧ last.length = c ∧ tail.length < c := by
  have hq : 0 < bs.length / c := Nat.div_pos h hpos
  have hr : bs.length % c < c := Nat.mod_lt _ hpos
  have hlen : (bs.length / c - 1) * c + c + bs.length % c = bs.length := by
    rw [← Nat.succ_mul, Nat.succ_eq_add_one, Nat.sub_add_cancel hq, Nat.div_add_mod']
  refine ⟨bs.length / c - 1, bs.take ((bs.length / c - 1) * c), (bs.drop ((bs.length / c - 1) * c)).take c,
    (bs.drop ((bs.length / c - 1) * c)).drop c, by rw [List.take_append_drop, List.take_append_drop], ?_, ?_, ?_⟩
  all_goals
    simp only [List.length_take, List.length_drop]
    omega

section Passes

variable {cfg : Config} (hc : cfg.subblocks * Config.BLOCK_BYTES = cfg.chunkBytes) (d : Dir) (k : Key)
include hc

/-- A chunk operation's string is a chunk. -/
theorem length_chunkString_eq (bs : List Byte) : (chunkString cfg d k bs).length = cfg.chunkBytes := by
  rw [length_chunkString, hc]

theorem length_mapChunks (n : Nat) (bs : List Byte) :
    (mapPieces cfg.chunkBytes (chunkString cfg d k) n bs).length = n * cfg.chunkBytes :=
  length_mapPieces _ _ (length_chunkString_eq hc d k) n bs

/-- The aligned pass keeps the length. -/
theorem length_alignedString (bs : List Byte) : (alignedString cfg d k bs).length = bs.length := by
  have := alignedChunks_mul_le cfg bs.length
  rw [alignedString, List.length_append, length_mapChunks hc, List.length_drop]
  omega

/-- The window pass keeps the length. -/
theorem length_windowString {bs : List Byte} (h : cfg.chunkBytes ≤ bs.length) :
    (windowString cfg d k bs).length = bs.length := by
  rw [windowString, List.length_append, length_chunkString_eq hc, List.length_take]
  omega

variable {f : Word → Word → Word → Word → Word} (hf : cfg.roundFn = roundFnOf f)
include hf

/-- The aligned pass of the opposite direction undoes an aligned pass (R108). -/
theorem alignedString_opposite (bs : List Byte) : alignedString cfg d.opposite k (alignedString cfg d k bs) = bs := by
  have hmul := alignedChunks_mul_le cfg bs.length
  have hfront := length_mapChunks hc d k (alignedChunks cfg bs.length)
    (bs.take (alignedChunks cfg bs.length * cfg.chunkBytes))
  have hpieces := mapPieces_leftInverse (length_chunkString_eq hc d k)
    (fun xs hxs => chunkString_opposite hf d k (hxs.trans hc.symm)) (alignedChunks cfg bs.length)
    (bs := bs.take (alignedChunks cfg bs.length * cfg.chunkBytes)) (by rw [List.length_take]; omega)
  rw [mapPieces_take] at hfront hpieces
  rw [alignedString, length_alignedString hc, alignedString, mapPieces_append _ _ _ _ _ hfront, hpieces,
    List.drop_left' hfront, List.take_append_drop]

/-- The window pass of the opposite direction undoes a window pass (R108). -/
theorem windowString_opposite {bs : List Byte} (h : cfg.chunkBytes ≤ bs.length) :
    windowString cfg d.opposite k (windowString cfg d k bs) = bs := by
  have hlast : (bs.drop (bs.length - cfg.chunkBytes)).length = cfg.chunkBytes := by rw [List.length_drop]; omega
  rw [windowString.eq_def cfg d, windowString_append _ _ _ _ (length_chunkString_eq hc d k _),
    chunkString_opposite hf d k (hlast.trans hc.symm), List.take_append_drop]

end Passes

section ClosedForms

variable {cfg : Config} (k : Key)

/-- Below the no-op floor `ENCB` changes nothing (R101). -/
theorem encString_short {P : List Byte} (h : P.length < cfg.chunkBytes) : encString cfg k P = P := if_pos h

/-- Below the no-op floor `DECB` changes nothing (R101). -/
theorem decString_short {Q : List Byte} (h : Q.length < cfg.chunkBytes) : decString cfg k Q = Q := if_pos h

/-- With no window pass the length is a multiple of the chunk (R102). -/
theorem alignedChunks_mul_of_not_tailPass {l : Nat} (h : tailPass cfg l = false) :
    alignedChunks cfg l * cfg.chunkBytes = l := by
  simp only [tailPass, tailLength, Bool.or_eq_false_iff, bne_eq_false_iff_eq] at h
  exact Nat.div_mul_cancel (Nat.dvd_of_mod_eq_zero h.1)

/-- With no window pass `ENCB` is the aligned pass (R105). -/
theorem encString_aligned {P : List Byte} (h : cfg.chunkBytes ≤ P.length) (ht : tailPass cfg P.length = false) :
    encString cfg k P = alignedString cfg .fwd k P := by
  have hnil : P.drop (alignedChunks cfg P.length * cfg.chunkBytes) = [] := by
    rw [alignedChunks_mul_of_not_tailPass ht, List.drop_length]
  rw [alignedString, hnil, List.append_nil]
  simp only [encString, if_neg (Nat.not_lt.mpr h), ht]
  rfl

/-- With no window pass `DECB` is the aligned pass (R107). -/
theorem decString_aligned {Q : List Byte} (h : cfg.chunkBytes ≤ Q.length) (ht : tailPass cfg Q.length = false) :
    decString cfg k Q = alignedString cfg .inv k Q := by
  have hnil : Q.drop (alignedChunks cfg Q.length * cfg.chunkBytes) = [] := by
    rw [alignedChunks_mul_of_not_tailPass ht, List.drop_length]
  rw [alignedString, hnil, List.append_nil]
  simp only [decString, if_neg (Nat.not_lt.mpr h), ht]
  rfl

variable (hc : cfg.subblocks * Config.BLOCK_BYTES = cfg.chunkBytes) (hpos : 0 < cfg.chunkBytes)
include hc hpos

/-- With a window pass `ENCB` is the aligned pass and then the window (R104, R105). -/
theorem encString_window {P : List Byte} (h : cfg.chunkBytes ≤ P.length) (ht : tailPass cfg P.length = true) :
    encString cfg k P = windowString cfg .fwd k (alignedString cfg .fwd k P) := by
  obtain ⟨n, front, last, tail, rfl, hfront, hlast, htail⟩ := exists_cut hpos h
  rw [encString_cut hfront hlast htail k ht, alignedString_cut hfront hlast htail,
    windowString_cut cfg .fwd k _ (length_chunkString_eq hc .fwd k last) htail]

/-- With a window pass `DECB` is the window and then the aligned pass (R106, R107). -/
theorem decString_window {Q : List Byte} (h : cfg.chunkBytes ≤ Q.length) (ht : tailPass cfg Q.length = true) :
    decString cfg k Q = alignedString cfg .inv k (windowString cfg .inv k Q) := by
  obtain ⟨n, front, last, tail, rfl, hfront, hlast, htail⟩ := exists_cut hpos h
  have hW := length_chunkString_eq hc .inv k (last.drop tail.length ++ tail)
  rw [decString_cut hfront hlast htail k ht, windowString_cut cfg .inv k front hlast htail,
    ← alignedString_cut hfront, List.append_assoc, List.take_append_drop]
  · rw [List.length_append, List.length_take, List.length_take, hW, hlast]
    omega
  · rw [List.length_drop, hW]
    omega

/-- The ciphertext is as long as the plaintext (R105). -/
theorem length_encString (P : List Byte) : (encString cfg k P).length = P.length := by
  obtain h | h := Nat.lt_or_ge P.length cfg.chunkBytes
  · rw [encString_short k h]
  · cases ht : tailPass cfg P.length with
    | false => rw [encString_aligned k h ht, length_alignedString hc]
    | true =>
      rw [encString_window k hc hpos h ht, length_windowString hc, length_alignedString hc]
      rwa [length_alignedString hc]

/-- The plaintext is as long as the ciphertext (R107). -/
theorem length_decString (Q : List Byte) : (decString cfg k Q).length = Q.length := by
  obtain h | h := Nat.lt_or_ge Q.length cfg.chunkBytes
  · rw [decString_short k h]
  · cases ht : tailPass cfg Q.length with
    | false => rw [decString_aligned k h ht, length_alignedString hc]
    | true => rw [decString_window k hc hpos h ht, length_alignedString hc, length_windowString hc _ _ h]

variable {f : Word → Word → Word → Word → Word} (hf : cfg.roundFn = roundFnOf f)
include hf

/-- R108 on strings: `DECB` undoes the passes of `ENCB`, the last one first. -/
theorem decString_encString (P : List Byte) : decString cfg k (encString cfg k P) = P := by
  have hlen := length_encString k hc hpos P
  obtain h | h := Nat.lt_or_ge P.length cfg.chunkBytes
  · rw [encString_short k h, decString_short k h]
  · cases ht : tailPass cfg P.length with
    | false =>
      rw [decString_aligned k (hlen ▸ h) (hlen ▸ ht), encString_aligned k h ht]
      exact alignedString_opposite hc .fwd k hf P
    | true =>
      have hwindow := windowString_opposite hc .fwd k hf (h.trans_eq (length_alignedString hc .fwd k P).symm)
      rw [decString_window k hc hpos (hlen ▸ h) (hlen ▸ ht), encString_window k hc hpos h ht]
      exact (congrArg _ hwindow).trans (alignedString_opposite hc .fwd k hf P)

/-- R108 on strings: `ENCB` undoes the passes of `DECB`, the last one first. -/
theorem encString_decString (Q : List Byte) : encString cfg k (decString cfg k Q) = Q := by
  have hlen := length_decString k hc hpos Q
  obtain h | h := Nat.lt_or_ge Q.length cfg.chunkBytes
  · rw [decString_short k h, encString_short k h]
  · cases ht : tailPass cfg Q.length with
    | false =>
      rw [encString_aligned k (hlen ▸ h) (hlen ▸ ht), decString_aligned k h ht]
      exact alignedString_opposite hc .inv k hf Q
    | true =>
      have haligned := alignedString_opposite hc .inv k hf (windowString cfg .inv k Q)
      rw [encString_window k hc hpos (hlen ▸ h) (hlen ▸ ht), decString_window k hc hpos h ht]
      exact (congrArg _ haligned).trans (windowString_opposite hc .inv k hf h)

end ClosedForms

section Dependence

section AnyConfig

variable {cfg : Config} (k : Key) (hc : cfg.subblocks * Config.BLOCK_BYTES = cfg.chunkBytes) (hpos : 0 < cfg.chunkBytes)
  {P : List Byte} (h : cfg.chunkBytes ≤ P.length)
include hc hpos h

/-- The ciphertext begins with the transforms of the chunks in front of the last full one (R105, R111). -/
theorem encString_take_front :
    (encString cfg k P).take ((alignedChunks cfg P.length - 1) * cfg.chunkBytes) =
      mapPieces cfg.chunkBytes (chunkString cfg .fwd k) (alignedChunks cfg P.length - 1) P := by
  obtain ⟨n, front, last, tail, rfl, hfront, hlast, htail⟩ := exists_cut hpos h
  have hpieces := length_mapChunks hc .fwd k n front
  rw [alignedChunks_cut hfront hlast htail, Nat.add_sub_cancel, mapPieces_append _ _ _ _ _ hfront]
  cases ht : tailPass cfg (front ++ (last ++ tail)).length with
  | false => rw [encString_aligned k h ht, alignedString_cut hfront hlast htail, List.take_left' hpieces]
  | true => rw [encString_cut hfront hlast htail k ht, List.take_left' hpieces]

/-- With a window pass the bytes in front of the window are those of the last full chunk's transform (R105, R111). -/
theorem encString_take_tail (ht : tailPass cfg P.length = true) :
    ((encString cfg k P).drop ((alignedChunks cfg P.length - 1) * cfg.chunkBytes)).take (tailLength cfg P.length) =
      (chunkString cfg .fwd k
        ((P.drop ((alignedChunks cfg P.length - 1) * cfg.chunkBytes)).take cfg.chunkBytes)).take
          (tailLength cfg P.length) := by
  obtain ⟨n, front, last, tail, rfl, hfront, hlast, htail⟩ := exists_cut hpos h
  have hkept : ((chunkString cfg .fwd k last).take tail.length).length = tail.length := by
    rw [List.length_take, length_chunkString_eq hc, Nat.min_eq_left (Nat.le_of_lt htail)]
  rw [alignedChunks_cut hfront hlast htail, Nat.add_sub_cancel, tailLength, tailLength_cut hfront hlast htail,
    encString_cut hfront hlast htail k ht, List.drop_left' (length_mapChunks hc .fwd k n front), List.take_left' hkept,
    List.drop_left' hfront, List.take_left' hlast]

end AnyConfig

/-- This hardware makes a window pass exactly when there is a tail (R14, R102). -/
theorem tailPass_hw_iff (l : Nat) : tailPass hw l = true ↔ l % 16 ≠ 0 := by
  simp [tailPass, tailLength, hw]

/-- On a multiple of 16 every block is transformed on its own (R111). -/
theorem encString_hw_blocks (k : Key) {P : List Byte} (h : 16 ≤ P.length) (haligned : P.length % 16 = 0) :
    encString hw k P = mapPieces 8 (blockString hw .fwd k) (P.length / 8) P := by
  have ht : tailPass hw P.length = false := by
    rw [← Bool.not_eq_true, tailPass_hw_iff]
    exact not_not.mpr haligned
  have hblocks : P.length / 8 = P.length / 16 * 2 := by omega
  calc encString hw k P
    _ = alignedString hw .fwd k P := encString_aligned k h ht
    _ = mapPieces (2 * 8) (mapPieces 8 (blockString hw .fwd k) 2) (P.length / 16) P := by
      rw [alignedString, alignedChunks_mul_of_not_tailPass ht, List.drop_length, List.append_nil]
      rfl
    _ = mapPieces 8 (blockString hw .fwd k) (P.length / 8) P := by rw [mapPieces_mapPieces, hblocks]

end Dependence

end Sys2Proof.Machine
end

section
/-! Memory after a buffer command: each pass rewrites the buffer's string in place, so the whole command rewrites it to
the closed form (R104 to R107). -/

namespace Sys2Proof.Machine

/-- A well-formed chunk is not empty (R11). -/
theorem chunkBytes_pos_of_wf {cfg : Config} (h : cfg.wf = true) : 0 < cfg.chunkBytes := by
  rw [Config.wf, Bool.or_eq_true, beq_iff_eq, beq_iff_eq] at h
  omega

/-- `t` has the key `k`, and its memory is `m` with the `n` bytes at `a` replaced by the string `bs`. -/
structure HoldsString (m : Memory) (a n : Nat) (k : Key) (bs : List Byte) (t : State) : Prop where
  key : t.k = k
  length : bs.length = n
  mem : t.mem = Memory.memWrite m a bs

namespace HoldsString

variable {m : Memory} {a n : Nat} {k : Key} {bs : List Byte} {t u : State}

/-- A machine holds its own bytes. -/
theorem self (a n : Nat) (hm : Memory.wf t.mem = true) :
    HoldsString t.mem a n t.k (Memory.memRead t.mem a n) t :=
  ⟨rfl, Memory.length_memRead .., (Memory.memWrite_memRead hm a n).symm⟩

/-- Only the key and memory matter. -/
theorem congr (h : HoldsString m a n k bs t) (hk : u.k = t.k) (hm : u.mem = t.mem) : HoldsString m a n k bs u :=
  ⟨hk.trans h.key, h.length, hm.trans h.mem⟩

variable (hm : Memory.wf m = true)
include hm

theorem wf (h : HoldsString m a n k bs t) : Memory.wf t.mem = true := by
  rw [h.mem]
  exact Memory.wf_memWrite hm a bs

theorem memRead_eq (h : HoldsString m a n k bs t) : Memory.memRead t.mem a n = bs := by
  rw [h.mem, ← h.length, Memory.memRead_memWrite_same hm]

/-- A rewrite of the string in place. -/
theorem rewrite {bs' : List Byte} (h : HoldsString m a n k bs t) (hk : u.k = t.k) (hlen : bs'.length = n)
    (hmem : u.mem = Memory.memWrite t.mem a bs') : HoldsString m a n k bs' u where
  key := hk.trans h.key
  length := hlen
  mem := by rw [hmem, h.mem, Memory.memWrite_memWrite_same hm a (h.length.trans hlen.symm)]

/-- Writing the string of the start back restores memory. -/
theorem restored {k' : Key} (h : HoldsString m a n k bs t) (h' : HoldsString t.mem a n k' (Memory.memRead m a n) u) :
    u.mem = m := by
  rw [h'.mem, h.mem, Memory.memWrite_memWrite_same hm a (h.length.trans h'.length.symm), Memory.memWrite_memRead hm]

variable {cfg : Config} (hc : cfg.subblocks * Config.BLOCK_BYTES = cfg.chunkBytes)
include hc

/-- The window pass (R102). -/
theorem after_window (h : HoldsString m a n k bs t) (d : Dir) (hn : cfg.chunkBytes ≤ n) :
    HoldsString m a n k (windowString cfg d k bs) (chunkOp cfg d (windowAddr cfg a n) t) := by
  have hsplit := Memory.memRead_add t.mem a (n - cfg.chunkBytes) cfg.chunkBytes
  rw [Nat.sub_add_cancel hn, h.memRead_eq hm] at hsplit
  refine h.rewrite hm (chunkOp_k ..) ((length_windowString hc d k (hn.trans_eq h.length.symm)).trans h.length) ?_
  rw [chunkOp_mem cfg d _ t (h.wf hm), hc, windowAddr_eq a hn, hsplit, h.key,
    windowString_append _ _ _ _ (Memory.length_memRead ..), Memory.memWrite_append, Memory.memWrite_memRead (h.wf hm),
    Memory.length_memRead]

/-- The aligned pass (R104, R106). -/
theorem after_alignedPass (h : HoldsString m a n k bs t) (d : Dir) :
    HoldsString m a n k (alignedString cfg d k bs) (alignedPass cfg d a (alignedChunks cfg n) t) := by
  have hsplit := Memory.memRead_add t.mem a (alignedChunks cfg n * cfg.chunkBytes)
    (n - alignedChunks cfg n * cfg.chunkBytes)
  rw [Nat.add_sub_cancel' (alignedChunks_mul_le cfg n), h.memRead_eq hm] at hsplit
  have hpieces := length_mapChunks hc d k (alignedChunks cfg n)
    (Memory.memRead t.mem a (alignedChunks cfg n * cfg.chunkBytes))
  have hkept := Memory.memRead_memWrite_disjoint (h.wf hm) (a := a) (b := a + alignedChunks cfg n * cfg.chunkBytes)
    (n := n - alignedChunks cfg n * cfg.chunkBytes) (.inr (Nat.le_of_eq (congrArg (a + ·) hpieces)))
  refine h.rewrite hm (alignedPass_k ..) ((length_alignedString hc d k bs).trans h.length) ?_
  rw [alignedPass_mem cfg d a _ t (h.wf hm) hc, alignedString, h.length, hsplit, h.key,
    mapPieces_append _ _ _ _ _ (Memory.length_memRead ..), List.drop_left' (Memory.length_memRead ..),
    Memory.memWrite_append, hpieces, ← hkept, Memory.memWrite_memRead (Memory.wf_memWrite (h.wf hm) _ _)]

end HoldsString

section Commands

variable {cfg : Config} (hcfg : cfg.wf = true) {s : State} (hm : Memory.wf s.mem = true)
include hcfg hm

/-- `ENCB` leaves the closed form of R105 in the buffer. -/
theorem runEncb_holdsString :
    HoldsString s.mem s.bufAddr.toNat s.bufLen.toNat s.k
      (encString cfg s.k (Memory.memRead s.mem s.bufAddr.toNat s.bufLen.toNat)) (runEncb cfg s) := by
  have hc := wholeBlocks_of_wf hcfg
  have hbuffer := HoldsString.self s.bufAddr.toNat s.bufLen.toNat hm
  obtain h | h := Nat.lt_or_ge s.bufLen.toNat cfg.chunkBytes
  · rw [runEncb_short cfg s h, encString_short _ (hbuffer.length.trans_lt h)]
    exact hbuffer.congr rfl rfl
  · have hlong := h.trans_eq hbuffer.length.symm
    have hpass := (hbuffer.congr (u := encbLatched s) rfl rfl).after_alignedPass hm hc .fwd
    rw [runEncb_long cfg s h]
    cases ht : tailPass cfg s.bufLen.toNat with
    | false =>
      rw [encString_aligned _ hlong (by rw [hbuffer.length, ht])]
      exact hpass.congr rfl rfl
    | true =>
      rw [encString_window _ hc (chunkBytes_pos_of_wf hcfg) hlong (by rw [hbuffer.length, ht])]
      exact ((hpass.congr (u := State.atPhase _ .tailLast) rfl rfl).after_window hm hc .fwd h).congr rfl rfl

/-- `DECB` leaves the closed form of R107 in the buffer. -/
theorem runDecb_holdsString :
    HoldsString s.mem s.bufAddr.toNat s.bufLen.toNat s.k
      (decString cfg s.k (Memory.memRead s.mem s.bufAddr.toNat s.bufLen.toNat)) (runDecb cfg s) := by
  have hc := wholeBlocks_of_wf hcfg
  have hbuffer := HoldsString.self s.bufAddr.toNat s.bufLen.toNat hm
  obtain h | h := Nat.lt_or_ge s.bufLen.toNat cfg.chunkBytes
  · rw [runDecb_short cfg s h, decString_short _ (hbuffer.length.trans_lt h)]
    exact hbuffer.congr rfl rfl
  · have hlong := h.trans_eq hbuffer.length.symm
    have hlatched := hbuffer.congr (u := (s.started .decb).latchAL.atPhase .tailFirst) rfl rfl
    rw [runDecb_long cfg s h]
    cases ht : tailPass cfg s.bufLen.toNat with
    | false =>
      have hstart := hbuffer.congr (u := decbWindowed cfg s) (by simp [decbWindowed, ht]) (by simp [decbWindowed, ht])
      rw [decString_aligned _ hlong (by rw [hbuffer.length, ht])]
      exact (hstart.after_alignedPass hm hc .inv).congr rfl rfl
    | true =>
      have hstart := (hlatched.after_window hm hc .inv h).congr (u := decbWindowed cfg s) (by simp [decbWindowed, ht])
        (by simp [decbWindowed, ht])
      rw [decString_window _ hc (chunkBytes_pos_of_wf hcfg) hlong (by rw [hbuffer.length, ht])]
      exact (hstart.after_alignedPass hm hc .inv).congr rfl rfl

end Commands

section RoundTrip

variable {cfg : Config} {f : Word → Word → Word → Word → Word} (hcfg : cfg.wf = true) {s : State}
  (hm : Memory.wf s.mem = true) (hf : cfg.roundFn = roundFnOf f)
include hcfg hm hf

/-- `DECB` after `ENCB` restores memory (R108). -/
theorem runDecb_runEncb_mem : (runDecb cfg (runEncb cfg s)).mem = s.mem := by
  have hframe : CommandFrame s (runEncb cfg s) := runCommand_frame cfg .encb s
  have hfirst := runEncb_holdsString hcfg hm
  have hsecond := runDecb_holdsString hcfg (hfirst.wf hm)
  rw [hframe.bufAddr, hframe.bufLen, hframe.key, hfirst.memRead_eq hm,
    decString_encString _ (wholeBlocks_of_wf hcfg) (chunkBytes_pos_of_wf hcfg) hf] at hsecond
  exact hfirst.restored hm hsecond

/-- `ENCB` after `DECB` restores memory (R108). -/
theorem runEncb_runDecb_mem : (runEncb cfg (runDecb cfg s)).mem = s.mem := by
  have hframe : CommandFrame s (runDecb cfg s) := runCommand_frame cfg .decb s
  have hfirst := runDecb_holdsString hcfg hm
  have hsecond := runEncb_holdsString hcfg (hfirst.wf hm)
  rw [hframe.bufAddr, hframe.bufLen, hframe.key, hfirst.memRead_eq hm,
    encString_decString _ (wholeBlocks_of_wf hcfg) (chunkBytes_pos_of_wf hcfg) hf] at hsecond
  exact hfirst.restored hm hsecond

end RoundTrip

section TwoCommands

variable {cfg : Config} {i j : Instr} {s t : State}

/-- The range precondition looks at the command's scope only. -/
theorem RangeOk.congr_scope (h : RangeOk cfg i s) (hij : scopeIsBuffer i = scopeIsBuffer j) : RangeOk cfg j s := by
  rwa [RangeOk, rangeLength, hij] at h

/-- A command leaves the range precondition as it finds it. -/
theorem RangeOk.after_command (h : RangeOk cfg i s) (hframe : CommandFrame s t) : RangeOk cfg i t := by
  rwa [RangeOk, hframe.bufAddr, hframe.bufLen, hframe.nonRam]

/-- Two commands of one scope run after one another on the same operands. -/
theorem exec_exec_next (hidle : s.busy = false) (hrange : RangeOk hw i s) (hij : scopeIsBuffer i = scopeIsBuffer j) :
    exec i s = .next (runCommand hw i s) ∧
      exec j (runCommand hw i s) = .next (runCommand hw j (runCommand hw i s)) :=
  ⟨(exec_next_iff ..).mpr ⟨hidle, hrange, rfl⟩,
    (exec_next_iff ..).mpr ⟨(runCommand_completed hw i s).busy,
      (hrange.congr_scope hij).after_command (runCommand_frame hw i s), rfl⟩⟩

end TwoCommands


end Sys2Proof.Machine
end

section
/-! The memory events of a buffer command cover its buffer and nothing else (R34, R103). -/

namespace Sys2Proof.Machine

/-- Every byte of `n` sub-blocks is moved by a load and by a store (R87, R88). -/
theorem subblockOps_cover (d : Dir) {n a b : Nat} (ha : a ≤ b) (hb : b < a + n * Config.BLOCK_BYTES) :
    (∃ x, .load x ∈ accessesOf (subblockOps d n a) ∧ x ≤ b ∧ b < x + 4) ∧
      ∃ x, .store x ∈ accessesOf (subblockOps d n a) ∧ x ≤ b ∧ b < x + 4 := by
  induction n generalizing a with
  | zero => omega
  | succ n ih =>
    simp only [subblockOps, accessesOf_append, accessesOf_blockOps, List.mem_append]
    rw [Nat.succ_mul] at hb
    by_cases hfirst : b < a + Config.BLOCK_BYTES
    · have hword : ∃ x, (x = a ∨ x = a + 4) ∧ x ≤ b ∧ b < x + 4 := by
        simp only [Config.BLOCK_BYTES] at hfirst
        by_cases hlow : b < a + 4
        · exact ⟨a, .inl rfl, ha, hlow⟩
        · exact ⟨a + 4, .inr rfl, by omega, by omega⟩
      obtain ⟨x, hx, hxb⟩ := hword
      exact ⟨⟨x, .inl (by simpa using hx), hxb⟩, ⟨x, .inl (by simpa using hx), hxb⟩⟩
    · obtain ⟨⟨x, hx, hxb⟩, ⟨y, hy, hyb⟩⟩ := ih (a := a + Config.BLOCK_BYTES) (by omega) (by omega)
      exact ⟨⟨x, .inr hx, hxb⟩, ⟨y, .inr hy, hyb⟩⟩

/-- The memory events of a buffer command are those of its chunk operations. -/
theorem mem_accessesOf_commandOps {cfg : Config} {i : Instr} (hi : scopeIsBuffer i = true) {a l : Nat} {e : Access} :
    e ∈ accessesOf (commandOps cfg i a l) ↔
      ∃ x ∈ chunkAddrs cfg (dirOf i) a l, e ∈ accessesOf (chunkOps cfg (dirOf i) x) := by
  rw [commandOps, if_pos hi, accessesOf, List.filterMap_flatMap]
  exact List.mem_flatMap

section ChunkAddrs

variable {cfg : Config} {l : Nat} (hl : cfg.chunkBytes ≤ l) (d : Dir) (a : Nat)
include hl

/-- The chunk operations of a buffer command are at the aligned chunks and at the window (R102, R104, R106). -/
theorem mem_chunkAddrs {x : Nat} :
    x ∈ chunkAddrs cfg d a l ↔
      (∃ i, i < alignedChunks cfg l ∧ x = a + i * cfg.chunkBytes) ∨
        tailPass cfg l = true ∧ x = a + (l - cfg.chunkBytes) := by
  have hwindow : x ∈ (if tailPass cfg l then [windowAddr cfg a l] else []) ↔
      tailPass cfg l = true ∧ x = a + (l - cfg.chunkBytes) := by
    rw [windowAddr_eq a hl]
    split <;> simp [*]
  have haligned : x ∈ (List.range (alignedChunks cfg l)).map (fun i => a + i * cfg.chunkBytes) ↔
      ∃ i, i < alignedChunks cfg l ∧ x = a + i * cfg.chunkBytes := by
    simp only [List.mem_map, List.mem_range, eq_comm]
  cases d with
  | fwd => simp only [chunkAddrs, if_neg (Nat.not_lt.mpr hl), List.mem_append, hwindow, haligned]
  | inv => simp only [chunkAddrs, if_neg (Nat.not_lt.mpr hl), List.mem_append, hwindow, haligned, or_comm]

/-- Every chunk operation of a buffer command lies inside the buffer (R103). -/
theorem chunkAddrs_inside {x : Nat} (hx : x ∈ chunkAddrs cfg d a l) : a ≤ x ∧ x + cfg.chunkBytes ≤ a + l := by
  obtain ⟨i, hi, rfl⟩ | ⟨-, rfl⟩ := (mem_chunkAddrs hl d a).mp hx
  · have hend : (i + 1) * cfg.chunkBytes ≤ l := (Nat.mul_le_mul_right _ hi).trans (alignedChunks_mul_le cfg l)
    rw [Nat.succ_mul] at hend
    omega
  · omega

/-- The chunk operations of a buffer command leave no byte of the buffer out (R103). -/
theorem chunkAddrs_cover (hpos : 0 < cfg.chunkBytes) {b : Nat} (ha : a ≤ b) (hb : b < a + l) :
    ∃ x ∈ chunkAddrs cfg d a l, x ≤ b ∧ b < x + cfg.chunkBytes := by
  have hq : alignedChunks cfg l * cfg.chunkBytes + tailLength cfg l = l := Nat.div_add_mod' l cfg.chunkBytes
  have hr : tailLength cfg l < cfg.chunkBytes := Nat.mod_lt l hpos
  by_cases haligned : (b - a) / cfg.chunkBytes < alignedChunks cfg l
  · have hdiv := Nat.div_add_mod' (b - a) cfg.chunkBytes
    have hmod := Nat.mod_lt (b - a) hpos
    exact ⟨_, (mem_chunkAddrs hl d a).mpr (.inl ⟨_, haligned, rfl⟩), by omega, by omega⟩
  · have hpast : alignedChunks cfg l * cfg.chunkBytes ≤ b - a :=
      (Nat.le_div_iff_mul_le hpos).mp (Nat.not_lt.mp haligned)
    have htail : tailLength cfg l ≠ 0 := by omega
    have hwindow : tailPass cfg l = true := by simp [tailPass, htail]
    exact ⟨_, (mem_chunkAddrs hl d a).mpr (.inr ⟨hwindow, rfl⟩), by omega, by omega⟩

end ChunkAddrs

section BufferAccesses

variable {cfg : Config} (hcfg : cfg.wf = true) {i : Instr} (hi : scopeIsBuffer i = true) {a l b : Nat}
  (hl : cfg.chunkBytes ≤ l)
include hcfg hi hl

/-- No memory event of a buffer command moves a byte outside the buffer (R103). -/
theorem moves_commandOps {e : Access} (he : e ∈ accessesOf (commandOps cfg i a l)) (hb : e.moves b) :
    a ≤ b ∧ b < a + l := by
  obtain ⟨x, hx, hex⟩ := (mem_accessesOf_commandOps hi).mp he
  have hinside := chunkAddrs_inside hl (dirOf i) a hx
  have hmoved := moves_subblockOps hex hb
  rw [wholeBlocks_of_wf hcfg] at hmoved
  omega

/-- Every byte of the buffer is moved by a load and by a store (R103). -/
theorem commandOps_cover (ha : a ≤ b) (hb : b < a + l) :
    (∃ x, .load x ∈ accessesOf (commandOps cfg i a l) ∧ x ≤ b ∧ b < x + 4) ∧
      ∃ x, .store x ∈ accessesOf (commandOps cfg i a l) ∧ x ≤ b ∧ b < x + 4 := by
  obtain ⟨y, hy, hyb, hby⟩ := chunkAddrs_cover hl (dirOf i) a (chunkBytes_pos_of_wf hcfg) ha hb
  rw [← wholeBlocks_of_wf hcfg] at hby
  obtain ⟨⟨x, hx, hxb⟩, ⟨z, hz, hzb⟩⟩ := subblockOps_cover (dirOf i) hyb hby
  simp only [mem_accessesOf_commandOps hi]
  exact ⟨⟨x, ⟨y, hy, hx⟩, hxb⟩, ⟨z, ⟨y, hy, hz⟩, hzb⟩⟩

end BufferAccesses

end Sys2Proof.Machine
end

section
/-! What a buffer command of this hardware leaves in the working registers, the counter and the latches, and its whole
effect from an idle state (R93, R104, R106, R109). -/

namespace Sys2Proof.Machine

section Registers

variable (cfg : Config) (s : State)

/-- A pass that starts at `IDX` 0 ends with the number of its chunks there (R109). -/
theorem alignedPass_idx (d : Dir) (a n : Nat) (h : s.idx = 0) : (alignedPass cfg d a n s).idx = n := by
  obtain rfl | hn := Nat.eq_zero_or_pos n
  · exact h
  · obtain ⟨hidx, -⟩ := alignedPass_sequencer cfg d a n s hn
    exact hidx

@[simp] theorem encbLatched_op : (encbLatched s).op = .encb := rfl
@[simp] theorem encbLatched_idx : (encbLatched s).idx = 0 := rfl
@[simp] theorem encbLatched_latA : (encbLatched s).latA = s.bufAddr := rfl
@[simp] theorem encbLatched_latL : (encbLatched s).latL = s.bufLen := rfl
@[simp] theorem decbWindowed_op : (decbWindowed cfg s).op = .decb := by
  rw [decbWindowed]
  split <;> simp
@[simp] theorem decbWindowed_idx : (decbWindowed cfg s).idx = 0 := rfl
@[simp] theorem decbWindowed_latA : (decbWindowed cfg s).latA = s.bufAddr := by
  rw [decbWindowed]
  split <;> simp
@[simp] theorem decbWindowed_latL : (decbWindowed cfg s).latL = s.bufLen := by
  rw [decbWindowed]
  split <;> simp

/-- The counter and the latches after `ENCB` (R109). -/
theorem runEncb_latches (h : cfg.chunkBytes ≤ s.bufLen.toNat) :
    (runEncb cfg s).idx = alignedChunks cfg s.bufLen.toNat ∧ (runEncb cfg s).latA = s.bufAddr ∧
      (runEncb cfg s).latL = s.bufLen := by
  have hidx := alignedPass_idx cfg _ .fwd s.bufAddr.toNat (alignedChunks cfg s.bufLen.toNat) (encbLatched_idx s)
  rw [runEncb_long cfg s h]
  simp only
  split <;> simp [hidx]

/-- The counter and the latches after `DECB` (R109). -/
theorem runDecb_latches (h : cfg.chunkBytes ≤ s.bufLen.toNat) :
    (runDecb cfg s).idx = alignedChunks cfg s.bufLen.toNat ∧ (runDecb cfg s).latA = s.bufAddr ∧
      (runDecb cfg s).latL = s.bufLen := by
  have hidx := alignedPass_idx cfg _ .inv s.bufAddr.toNat (alignedChunks cfg s.bufLen.toNat) (decbWindowed_idx cfg s)
  rw [runDecb_long cfg s h]
  simp [hidx]

end Registers

namespace HoldsBlock

variable {cfg : Config} {d : Dir} {b : Nat} {t : State}

theorem after_atIdx (h : HoldsBlock cfg d b t) (i : Nat) : HoldsBlock cfg d b (t.atIdx i) :=
  ⟨h.v0, h.v1, h.sum, h.rnd⟩

theorem after_completed (h : HoldsBlock cfg d b t) : HoldsBlock cfg d b t.completed :=
  ⟨h.v0, h.v1, h.sum, h.rnd⟩

end HoldsBlock

/-- `ENCB` ends with the window, or with the last chunk of an aligned buffer: at the buffer's end (R104). -/
theorem lastBlock_encb (l : Nat) : lastBlock .encb l = l - 8 := rfl

/-- `DECB` ends with the last aligned chunk (R106). -/
theorem lastBlock_decb (l : Nat) : lastBlock .decb l = alignedChunks hw l * 16 - 8 := rfl

/-- The window of `DECB` keeps the canonical form. -/
theorem wf_decbWindowed (cfg : Config) {s : State} (hm : Memory.wf s.mem = true) :
    Memory.wf (decbWindowed cfg s).mem = true := by
  rw [decbWindowed, State.atPhase_mem, State.atIdx_mem]
  split
  · exact wf_chunkOp cfg _ _ ((s.started .decb).latchAL.atPhase .tailFirst) hm
  · exact hm

section LastBlock

variable {s : State} (hm : Memory.wf s.mem = true)
include hm

/-- A chunk operation of this hardware leaves the block at the end of its chunk in the registers (R93). -/
theorem holdsBlock_chunkOp_hw (d : Dir) (a : Nat) : HoldsBlock hw d (a + 8) (chunkOp hw d a s) :=
  holdsBlock_chunkOp (cfg := hw) (f := mix) rfl hm d a subblocks_hw

/-- An aligned pass leaves the block at the end of its last chunk in the registers (R93). -/
theorem holdsBlock_alignedPass (d : Dir) (a : Nat) {n : Nat} (hn : 0 < n) :
    HoldsBlock hw d (a + (n * 16 - 8)) (alignedPass hw d a n s) := by
  obtain ⟨n, rfl⟩ := Nat.exists_eq_add_of_lt hn
  have hend : a + ((0 + n + 1) * 16 - 8) = a + (0 + n) * 16 + 8 := by omega
  have hlast := holdsBlock_chunkOp_hw (s := ((alignedPass hw d a (0 + n) s).atPhase .aligned).atIdx (0 + n))
    (wf_alignedPass hw d a (0 + n) s hm) d (a + (0 + n) * 16)
  rw [hend, alignedPass, alignedChunk]
  exact hlast.after_atIdx _

/-- `ENCB` stores the block at the end of the buffer last (R104). -/
theorem holdsBlock_runEncb (h : 16 ≤ s.bufLen.toNat) :
    HoldsBlock hw .fwd (s.bufAddr.toNat + lastBlock .encb s.bufLen.toNat) (runEncb hw s) := by
  have hq : 0 < alignedChunks hw s.bufLen.toNat := Nat.div_pos h (by decide)
  rw [runEncb_long hw s h, lastBlock_encb]
  cases ht : tailPass hw s.bufLen.toNat with
  | false =>
    have hlast := holdsBlock_alignedPass (s := encbLatched s) hm .fwd s.bufAddr.toNat hq
    have hend : alignedChunks hw s.bufLen.toNat * 16 = s.bufLen.toNat := alignedChunks_mul_of_not_tailPass ht
    rw [hend] at hlast
    exact hlast.after_completed
  | true =>
    have hlast := holdsBlock_chunkOp_hw (s := State.atPhase (alignedPass hw .fwd s.bufAddr.toNat
        (alignedChunks hw s.bufLen.toNat) (encbLatched s)) .tailLast)
      (wf_alignedPass hw _ _ _ _ hm) .fwd (windowAddr hw s.bufAddr.toNat s.bufLen.toNat)
    have hend : windowAddr hw s.bufAddr.toNat s.bufLen.toNat + 8 = s.bufAddr.toNat + (s.bufLen.toNat - 8) := by
      rw [windowAddr, chunkBytes_hw]
      omega
    rw [hend] at hlast
    exact hlast.after_completed

/-- `DECB` stores the block at the end of the aligned chunks last (R106). -/
theorem holdsBlock_runDecb (h : 16 ≤ s.bufLen.toNat) :
    HoldsBlock hw .inv (s.bufAddr.toNat + lastBlock .decb s.bufLen.toNat) (runDecb hw s) := by
  have hq : 0 < alignedChunks hw s.bufLen.toNat := Nat.div_pos h (by decide)
  have hlast := holdsBlock_alignedPass (wf_decbWindowed hw hm) .inv s.bufAddr.toNat hq
  rw [runDecb_long hw s h, lastBlock_decb]
  exact hlast.after_completed

end LastBlock

/-- A buffer command of at least a chunk is in order when its buffer is inside the data space and ordinary memory (R46,
R47). -/
theorem rangeOk_buffer {i : Instr} {s : State} (hi : scopeIsBuffer i = true) (hl : 16 ≤ s.bufLen.toNat)
    (hspace : s.bufAddr.toNat + s.bufLen.toNat ≤ Config.ADDR_SPACE)
    (hordinary : ordinary s.nonRam s.bufAddr.toNat s.bufLen.toNat = true) : RangeOk hw i s := by
  rw [RangeOk, rangeLength_long hi hl]
  exact ⟨hspace, hordinary⟩

/-- The effect of a buffer command from what it leaves in the buffer, in the registers, in the counter and latches. -/
theorem bufferCommandEffect_of {i : Instr} {s t : State} {result : Key → List Byte → List Byte}
    (hm : Memory.wf s.mem = true) (hrun : t = runCommand hw i s)
    (hstring : HoldsString s.mem s.bufAddr.toNat s.bufLen.toNat s.k
      (result s.k (Memory.memRead s.mem s.bufAddr.toNat s.bufLen.toNat)) t)
    (hblock : HoldsBlock hw (dirOf i) (s.bufAddr.toNat + lastBlock i s.bufLen.toNat) t)
    (hlatches : t.idx = s.bufLen.toNat / 16 ∧ t.latA = s.bufAddr ∧ t.latL = s.bufLen) :
    BufferCommandEffect i result s t := by
  obtain ⟨hidx, hlatA, hlatL⟩ := hlatches
  constructor
  case completed => exact hrun ▸ runCommand_completed hw i s
  case frame => exact hrun ▸ runCommand_frame hw i s
  case mem => exact hstring.mem ▸ Memory.replaces_memWrite hm _ _
  case v0 => exact hblock.v0
  case v1 => exact hblock.v1
  case sum => exact hblock.sum
  case rnd => exact hblock.rnd
  case idx => exact hidx
  case latA => exact hlatA
  case latL => exact hlatL

end Sys2Proof.Machine
end

section
/-! The micro-steps of a command make its run: each row of R109 as an equation, the aligned pass as so many rows, and
the whole command (R110, R171). -/

namespace Sys2Proof.Machine

section Rows

variable (cfg : Config) {s : State}

theorem microStep_single (hp : s.phase = .single) :
    microStep cfg s = .next (chunkOp cfg (dirOf s.op) s.latA.toNat s).completed := by
  simp only [microStep, hp]

theorem microStep_tailFirst (hp : s.phase = .tailFirst) :
    microStep cfg s =
      .next (((chunkOp cfg .inv (windowAddr cfg s.latA.toNat s.latL.toNat) s).atIdx 0).atPhase .aligned) := by
  simp only [microStep, hp]

theorem microStep_tailLast (hp : s.phase = .tailLast) :
    microStep cfg s = .next (chunkOp cfg .fwd (windowAddr cfg s.latA.toNat s.latL.toNat) s).completed := by
  simp only [microStep, hp]

/-- An aligned chunk that is not the last. -/
theorem microStep_aligned (hp : s.phase = .aligned) (hidx : s.idx + 1 < alignedChunks cfg s.latL.toNat) :
    microStep cfg s = .next (alignedChunk cfg (dirOf s.op) s.latA.toNat s.idx s) := by
  simp only [microStep, hp, alignedStep, if_pos hidx]

/-- What follows the last aligned chunk: the window of `ENCB`, when there is one, or the end (R109). -/
def afterAligned (cfg : Config) (s : State) : State :=
  if s.op = .encb ∧ tailPass cfg s.latL.toNat = true then s.atPhase .tailLast else s.completed

/-- The last aligned chunk. -/
theorem microStep_aligned_last (hp : s.phase = .aligned) (hidx : s.idx + 1 = alignedChunks cfg s.latL.toNat) :
    microStep cfg s = .next (afterAligned cfg (alignedChunk cfg (dirOf s.op) s.latA.toNat s.idx s)) := by
  simp only [microStep, hp, alignedStep, hidx, Nat.lt_irrefl, if_false, if_true, afterAligned, alignedChunk_op,
    alignedChunk_latL]
  split <;> rfl

end Rows

section MicroSteps

variable {cfg : Config} {s t : State}

/-- Micro-steps go on from where the first of them led. -/
theorem microSteps_succ_of_next (h : microStep cfg s = .next t) (n : Nat) :
    microSteps cfg (n + 1) s = microSteps cfg n t := by
  rw [microSteps, h]

theorem microSteps_one_of_next (h : microStep cfg s = .next t) : microSteps cfg 1 s = .next t :=
  microSteps_succ_of_next h 0

/-- More micro-steps go on from where the first `m` led. -/
theorem microSteps_add_of_next {m : Nat} (h : microSteps cfg m s = .next t) (n : Nat) :
    microSteps cfg (m + n) s = microSteps cfg n t := by
  induction m generalizing s with
  | zero =>
    cases h
    rw [Nat.zero_add]
  | succ m ih =>
    rw [Nat.add_right_comm]
    rw [microSteps] at h ⊢
    cases hstep : microStep cfg s with
    | next u =>
      rw [hstep] at h
      exact ih h
    | fault f => rw [hstep] at h; cases h
    | refused r => rw [hstep] at h; cases h

variable (hp : s.phase = .aligned) (hidx : s.idx = 0)
include hp hidx

/-- The aligned pass keeps the phase `ALIGNED` and counts in `IDX` (R109). -/
theorem alignedPass_row (d : Dir) (a n : Nat) :
    (alignedPass cfg d a n s).phase = .aligned ∧ (alignedPass cfg d a n s).idx = n := by
  obtain rfl | hn := Nat.eq_zero_or_pos n
  · exact ⟨hp, hidx⟩
  · exact (alignedPass_sequencer cfg d a n s hn).symm

/-- Micro-steps before the last aligned chunk make the aligned pass so far. -/
theorem microSteps_alignedPass {n : Nat} (hn : n < alignedChunks cfg s.latL.toNat) :
    microSteps cfg n s = .next (alignedPass cfg (dirOf s.op) s.latA.toNat n s) := by
  induction n with
  | zero => rfl
  | succ n ih =>
    obtain ⟨hphase, hcount⟩ := alignedPass_row (cfg := cfg) hp hidx (dirOf s.op) s.latA.toNat n
    rw [microSteps_add_of_next (ih (Nat.lt_of_succ_lt hn)) 1]
    have hstep := microStep_aligned cfg hphase (by rwa [hcount, alignedPass_latL])
    rw [alignedPass_op, alignedPass_latA, hcount] at hstep
    exact microSteps_one_of_next hstep

/-- One micro-step for each aligned chunk makes the whole aligned pass. -/
theorem microSteps_alignedChunks (hpos : 0 < alignedChunks cfg s.latL.toNat) :
    microSteps cfg (alignedChunks cfg s.latL.toNat) s =
      .next (afterAligned cfg (alignedPass cfg (dirOf s.op) s.latA.toNat (alignedChunks cfg s.latL.toNat) s)) := by
  obtain ⟨n, hn⟩ := Nat.exists_eq_succ_of_ne_zero hpos.ne'
  obtain ⟨hphase, hcount⟩ := alignedPass_row (cfg := cfg) hp hidx (dirOf s.op) s.latA.toNat n
  have hstep := microStep_aligned_last cfg hphase (by rw [hcount, alignedPass_latL, hn])
  rw [alignedPass_op, alignedPass_latA, hcount] at hstep
  rw [hn, Nat.succ_eq_add_one, microSteps_add_of_next (microSteps_alignedPass hp hidx (by omega)) 1]
  exact microSteps_one_of_next hstep

end MicroSteps

section Commands

variable {cfg : Config} {i : Instr} {s : State}

/-- A chunk command makes one micro-step (R109, R171). -/
theorem microSteps_begin_chunk (hi : scopeIsBuffer i = false) :
    microSteps cfg (chunkCount cfg i s.bufLen.toNat) (begin cfg i s) = .next (runCommand cfg i s) := by
  have hbegin : begin cfg i s = (s.started i).latchA.atPhase .single := by
    cases i with
    | encc => rfl
    | decc => rfl
    | encb => cases hi
    | decb => cases hi
  rw [chunkCount, if_neg (by simp [hi]), hbegin, runCommand_chunk hi]
  exact microSteps_one_of_next (microStep_single cfg rfl)

/-- A buffer command below the no-op floor makes none (R101, R109). -/
theorem microSteps_begin_short (hi : scopeIsBuffer i = true) (h : s.bufLen.toNat < cfg.chunkBytes) :
    microSteps cfg (chunkCount cfg i s.bufLen.toNat) (begin cfg i s) = .next (runCommand cfg i s) := by
  have hbegin : begin cfg i s = (s.started i).completed := by
    cases i with
    | encc => cases hi
    | decc => cases hi
    | encb => exact if_pos h
    | decb => exact if_pos h
  rw [chunkCount, if_pos hi, if_pos h, hbegin, runCommand_short hi h, microSteps]

variable (h : cfg.chunkBytes ≤ s.bufLen.toNat) (hpos : 0 < alignedChunks cfg s.bufLen.toNat)
include h

/-- A buffer command makes one micro-step for each chunk and one for the window (R171). -/
theorem chunkCount_buffer (hi : scopeIsBuffer i = true) :
    chunkCount cfg i s.bufLen.toNat =
      alignedChunks cfg s.bufLen.toNat + (if tailPass cfg s.bufLen.toNat then 1 else 0) := by
  rw [chunkCount, if_pos hi, if_neg (Nat.not_lt.mpr h)]

include hpos

/-- `ENCB` makes the micro-steps of its aligned pass, then that of the window. -/
theorem microSteps_begin_encb :
    microSteps cfg (chunkCount cfg .encb s.bufLen.toNat) (begin cfg .encb s) = .next (runCommand cfg .encb s) := by
  have hbegin : begin cfg .encb s = encbLatched s := if_neg (Nat.not_lt.mpr h)
  have hpass := microSteps_alignedChunks (cfg := cfg) (s := encbLatched s) rfl rfl hpos
  simp only [encbLatched_latL, encbLatched_latA, encbLatched_op, afterAligned, alignedPass_op, alignedPass_latL]
    at hpass
  rw [chunkCount_buffer h rfl, hbegin, microSteps_add_of_next hpass, runCommand, runEncb_long cfg s h]
  cases ht : tailPass cfg s.bufLen.toNat with
  | false => rfl
  | true =>
    have hwindow := microStep_tailLast cfg (s := State.atPhase (alignedPass cfg .fwd s.bufAddr.toNat
      (alignedChunks cfg s.bufLen.toNat) (encbLatched s)) .tailLast) rfl
    rw [State.atPhase_latA, State.atPhase_latL, alignedPass_latA, alignedPass_latL] at hwindow
    exact microSteps_one_of_next hwindow

/-- `DECB` makes the micro-step of the window, then those of its aligned pass. -/
theorem microSteps_begin_decb :
    microSteps cfg (chunkCount cfg .decb s.bufLen.toNat) (begin cfg .decb s) = .next (runCommand cfg .decb s) := by
  have hpass := microSteps_alignedChunks (cfg := cfg) (s := decbWindowed cfg s) rfl rfl (by simpa using hpos)
  rw [decbWindowed_latL, decbWindowed_latA, decbWindowed_op, afterAligned, if_neg (by simp)] at hpass
  rw [chunkCount_buffer h rfl, runCommand, runDecb_long cfg s h, Nat.add_comm]
  cases ht : tailPass cfg s.bufLen.toNat with
  | false =>
    have hbegin : begin cfg .decb s = decbWindowed cfg s := by
      simp [begin, decbWindowed, Nat.not_lt.mpr h, ht]
    rw [hbegin]
    exact (congrArg (microSteps cfg · _) (Nat.zero_add _)).trans hpass
  | true =>
    have hbegin : begin cfg .decb s = (s.started .decb).latchAL.atPhase .tailFirst := by
      simp [begin, Nat.not_lt.mpr h, ht]
    have hwindow : microStep cfg (begin cfg .decb s) = .next (decbWindowed cfg s) := by
      rw [hbegin, microStep_tailFirst cfg rfl, decbWindowed, if_pos ht]
      rfl
    exact (microSteps_add_of_next (microSteps_one_of_next hwindow) _).trans hpass

end Commands

end Sys2Proof.Machine
end

section
/-! A running command left alone ends: each micro-step leaves one fewer to make (R92, R109, R171). -/

namespace Sys2Proof.Machine

/-- How many micro-steps are left, by the row of R109 the sequencer is at. -/
def microStepsLeft (cfg : Config) (s : State) : Nat :=
  match s.phase with
  | .idle => 0
  | .single => 1
  | .tailFirst => alignedChunks cfg s.latL.toNat + 1
  | .aligned =>
    alignedChunks cfg s.latL.toNat - s.idx + (if s.op = .encb ∧ tailPass cfg s.latL.toNat = true then 1 else 0)
  | .tailLast => 1

section Left

variable {cfg : Config} {s : State}

theorem microStepsLeft_idle (hp : s.phase = .idle) : microStepsLeft cfg s = 0 := by rw [microStepsLeft, hp]

theorem microStepsLeft_single (hp : s.phase = .single) : microStepsLeft cfg s = 1 := by rw [microStepsLeft, hp]

theorem microStepsLeft_tailFirst (hp : s.phase = .tailFirst) :
    microStepsLeft cfg s = alignedChunks cfg s.latL.toNat + 1 := by rw [microStepsLeft, hp]

theorem microStepsLeft_aligned (hp : s.phase = .aligned) :
    microStepsLeft cfg s = alignedChunks cfg s.latL.toNat - s.idx +
      (if s.op = .encb ∧ tailPass cfg s.latL.toNat = true then 1 else 0) := by rw [microStepsLeft, hp]

theorem microStepsLeft_tailLast (hp : s.phase = .tailLast) : microStepsLeft cfg s = 1 := by rw [microStepsLeft, hp]

/-- At most one micro-step is left for each chunk and one for the window. -/
theorem microStepsLeft_le (cfg : Config) (s : State) : microStepsLeft cfg s ≤ alignedChunks cfg s.latL.toNat + 1 := by
  rw [microStepsLeft]
  split
  · omega
  · omega
  · omega
  · split <;> omega
  · omega

/-- After the last aligned chunk the window of `ENCB` is left, when there is one. -/
theorem microStepsLeft_afterAligned :
    microStepsLeft cfg (afterAligned cfg s) = if s.op = .encb ∧ tailPass cfg s.latL.toNat = true then 1 else 0 := by
  rw [afterAligned]
  split
  · exact microStepsLeft_tailLast rfl
  · exact microStepsLeft_idle rfl

end Left

/-- When the sequencer is idle the command has completed (R109). -/
def IdleIsDone (s : State) : Prop := s.phase = .idle → s.busy = false ∧ s.done = true

theorem idleIsDone_completed (s : State) : IdleIsDone s.completed := fun _ => ⟨busy_completed s, done_completed s⟩

namespace StateInv

variable {s : State}

/-- A micro-step of a running command is one of those left, and the last one completes the command. -/
theorem microStep_progress (h : StateInv s) (hbusy : s.busy = true) :
    ∃ t, microStep hw s = .next t ∧ microStepsLeft hw t + 1 = microStepsLeft hw s ∧ IdleIsDone t := by
  obtain ⟨p, hp⟩ : ∃ p, s.phase = p := ⟨_, rfl⟩
  cases p with
  | idle => exact absurd hp (h.busyIffPhase.mp hbusy)
  | single =>
    refine ⟨_, microStep_single hw hp, ?_, idleIsDone_completed _⟩
    rw [microStepsLeft_single hp, microStepsLeft_idle (State.completed_phase _)]
  | tailFirst =>
    obtain ⟨hop, -, -⟩ := (sequencerOk_tailFirst hp).mp h.sequencer
    refine ⟨_, microStep_tailFirst hw hp, ?_, by simp [IdleIsDone]⟩
    rw [microStepsLeft_tailFirst hp, microStepsLeft_aligned (State.atPhase_phase ..)]
    simp [hop]
  | aligned =>
    obtain ⟨-, hidx, -⟩ := (sequencerOk_aligned hp).mp h.sequencer
    obtain hmore | hlast := Nat.lt_or_eq_of_le (Nat.succ_le_of_lt hidx)
    · refine ⟨_, microStep_aligned hw hp hmore, ?_, by simp [IdleIsDone]⟩
      rw [microStepsLeft_aligned hp, microStepsLeft_aligned (alignedChunk_phase ..), alignedChunk_idx, alignedChunk_op,
        alignedChunk_latL]
      omega
    · refine ⟨_, microStep_aligned_last hw hp hlast, ?_, ?_⟩
      · rw [microStepsLeft_afterAligned, microStepsLeft_aligned hp, alignedChunk_op, alignedChunk_latL]
        omega
      · rw [afterAligned]
        split
        · simp [IdleIsDone]
        · exact idleIsDone_completed _
  | tailLast =>
    refine ⟨_, microStep_tailLast hw hp, ?_, idleIsDone_completed _⟩
    rw [microStepsLeft_tailLast hp, microStepsLeft_idle (State.completed_phase _)]

/-- The micro-steps left complete a running command that the host leaves alone. -/
theorem run_microStepsLeft (h : StateInv s) (hscript : s.script = []) (hbusy : s.busy = true) :
    ∃ t, Host.Core.run core (microStepsLeft hw s) s = .next t ∧ t.busy = false ∧ t.done = true ∧ t.phase = .idle := by
  obtain ⟨n, hn⟩ : ∃ n, microStepsLeft hw s = n := ⟨_, rfl⟩
  induction n generalizing s with
  | zero =>
    obtain ⟨t, -, hleft, -⟩ := h.microStep_progress hbusy
    omega
  | succ n ih =>
    obtain ⟨t, hmicro, hleft, hend⟩ := h.microStep_progress hbusy
    have hrun := run_succ_of_step ((step_nil hscript).trans hmicro) n
    have ht : microStepsLeft hw t = n := by omega
    rw [hn, hrun]
    by_cases hp : t.phase = .idle
    · obtain rfl : n = 0 := ht.symm.trans (microStepsLeft_idle hp)
      obtain ⟨hidle, hdone⟩ := hend hp
      exact ⟨t, rfl, hidle, hdone, hp⟩
    · have hinv := h.microStep_keeps hmicro
      rw [← ht]
      exact ih hinv ((microStep_frame hmicro).script.trans hscript) (hinv.busyIffPhase.mpr hp) ht

end StateInv

end Sys2Proof.Machine
end

section
/-! The settled statements about the buffer driver. -/

namespace Sys2Proof.Machine

/-- Settles O24: each command leaves its closed form in the buffer. -/
theorem bufferCommandsMeetTheClosedForms : Obligations.BufferCommandsMeetTheClosedForms := by
  intro cfg s hcfg hm
  rw [(runEncb_holdsString hcfg hm).mem, (runDecb_holdsString hcfg hm).mem]
  exact ⟨Memory.replaces_memWrite hm _ _, Memory.replaces_memWrite hm _ _⟩

/-- Settles O11: the closed form in the buffer, the buffer's last block in the registers. -/
theorem encbEncryptsBuffer : Obligations.EncbEncryptsBuffer := by
  intro s hm hidle hl hspace hordinary
  exact ⟨_, (exec_next_iff ..).mpr ⟨hidle, rangeOk_buffer rfl hl hspace hordinary, rfl⟩,
    bufferCommandEffect_of hm rfl (runEncb_holdsString rfl hm) (holdsBlock_runEncb hm hl) (runEncb_latches hw s hl)⟩

/-- Settles O12: the closed form in the buffer, the last aligned block in the registers. -/
theorem decbDecryptsBuffer : Obligations.DecbDecryptsBuffer := by
  intro s hm hidle hl hspace hordinary
  exact ⟨_, (exec_next_iff ..).mpr ⟨hidle, rangeOk_buffer rfl hl hspace hordinary, rfl⟩,
    bufferCommandEffect_of hm rfl (runDecb_holdsString rfl hm) (holdsBlock_runDecb hm hl) (runDecb_latches hw s hl)⟩

/-- Settles O13: below the no-op floor the run is a start and a completion. -/
theorem shortBufferIsSilentNoOp : Obligations.ShortBufferIsSilentNoOp := by
  intro s i hi hidle hl
  have hbuffer : scopeIsBuffer i = true := by obtain rfl | rfl := hi <;> rfl
  have hrun := runCommand_short (cfg := hw) hbuffer hl
  refine ⟨commandOps_short _ hbuffer hl, _, (exec_next_iff ..).mpr ⟨hidle, rangeOk_short hbuffer hl, rfl⟩,
    runCommand_completed hw i s, runCommand_frame hw i s, ?_⟩
  rw [hrun]
  rfl

/-- Settles O23: the chunk operations lie inside the buffer and cover it. -/
theorem bufferCommandTouchesExactlyItsBuffer : Obligations.BufferCommandTouchesExactlyItsBuffer :=
  fun _ _ _ _ hcfg hi hl => ⟨fun _ he _ => moves_commandOps hcfg hi hl he, fun _ => commandOps_cover hcfg hi hl⟩

/-- Settles O25: the second command rewrites what the first left to the string it was made of. -/
theorem bufferRoundTrip : Obligations.BufferRoundTrip := by
  refine ⟨fun cfg f s hcfg hf hm => ⟨runDecb_runEncb_mem hcfg hm hf, runEncb_runDecb_mem hcfg hm hf⟩, ?_⟩
  intro s hm hidle hrange
  obtain ⟨henc, hdec⟩ := exec_exec_next (j := .decb) hidle hrange rfl
  obtain ⟨hdec', henc'⟩ := exec_exec_next (i := .decb) (j := .encb) hidle (hrange.congr_scope rfl) rfl
  exact ⟨⟨_, _, henc, hdec, runDecb_runEncb_mem (f := mix) rfl hm rfl⟩,
    ⟨_, _, hdec', henc', runEncb_runDecb_mem (f := mix) rfl hm rfl⟩⟩

/-- Settles O26: the aligned pass leaves every chunk's own transform, and the window comes after the first `r` bytes of
the last. -/
theorem ciphertextDependsOnItsOwnChunks : Obligations.CiphertextDependsOnItsOwnChunks :=
  fun k P hP => ⟨encString_hw_blocks k hP, length_encString k hw_wholeBlocks (by decide) P,
    encString_take_front k hw_wholeBlocks (by decide) hP,
    fun hr => encString_take_tail k hw_wholeBlocks (by decide) hP ((tailPass_hw_iff _).mpr hr)⟩

/-- Settles O27, by the kind of the command. -/
theorem microStepsRefineTheCommand : Obligations.MicroStepsRefineTheCommand := by
  intro cfg i s hcfg
  have hpos (h : cfg.chunkBytes ≤ s.bufLen.toNat) : 0 < alignedChunks cfg s.bufLen.toNat :=
    Nat.div_pos h (chunkBytes_pos_of_wf hcfg)
  obtain ⟨hi, -⟩ | ⟨hi, hl, -⟩ | ⟨rfl, hl, -⟩ | ⟨rfl, hl, -⟩ := runCommand_cases cfg i s
  · exact microSteps_begin_chunk hi
  · exact microSteps_begin_short hi hl
  · exact microSteps_begin_encb hl (hpos hl)
  · exact microSteps_begin_decb hl (hpos hl)

/-- Settles O28: the micro-steps left are that many. -/
theorem runningCommandTerminates : Obligations.RunningCommandTerminates := by
  intro s hinv hscript hbusy
  obtain ⟨t, hrun, hend⟩ := hinv.run_microStepsLeft hscript hbusy
  exact ⟨_, t, microStepsLeft_le hw s, hrun, hend⟩

end Sys2Proof.Machine
end

section
/-! What a running block refuses the host and what it lets it read (R142), and how a command ends (R140). -/

namespace Sys2Proof.Machine

variable {s t : State} {rest : List HostAction}

/-- A command that answers has completed (R109, R140). -/
theorem completed_of_exec {i : Instr} (h : exec i s = .next t) : Completed i t := by
  obtain ⟨-, -, rfl⟩ := (exec_next_iff ..).mp h
  exact runCommand_completed hw i s

/-- While a command runs, `DONE` reads 0 (R30). -/
theorem StateInv.done_of_busy (h : StateInv s) (hbusy : s.busy = true) : s.done = false :=
  Bool.eq_false_iff.mpr fun hdone => h.notBusyAndDone ⟨hbusy, hdone⟩

/-- A register's offset is a multiple of 4 (R28). -/
theorem Reg.offset_aligned (r : Reg) : r.offset % 4 = 0 := by
  cases r <;> rfl

/-- `STATUS` is the one register the host may write while a command runs (R165). -/
theorem guardedOffset_of_ne_status {r : Reg} (h : r ≠ .status) : guardedOffset r.offset := by
  cases r with
  | cmd => exact .inl rfl
  | status => exact absurd rfl h
  | bufAddr => exact .inr (.inl rfl)
  | bufLen => exact .inr (.inr rfl)

/-- A running block refuses a write to each guarded register (R142). -/
theorem writeRegister_busy {offset : Nat} (w : Word) (hguarded : guardedOffset offset) (hbusy : s.busy = true) :
    writeRegister offset w s = .refused .writeWhileBusy := by
  obtain rfl | rfl | rfl := hguarded
  · rw [writeRegister, if_pos rfl, writeCmd, if_pos hbusy]
  · rw [writeRegister, if_neg (by decide), if_pos rfl, if_pos hbusy]
  · rw [writeRegister, if_neg (by decide), if_neg (by decide), if_pos rfl, if_pos hbusy]

theorem step_wr_busy {r : Reg} {v : Word} (hscript : s.script = .wr r v :: rest) (hr : r ≠ .status)
    (hbusy : s.busy = true) : step s = .refused .writeWhileBusy :=
  (step_regWrite hscript r.offset_aligned).trans (writeRegister_busy v (guardedOffset_of_ne_status hr) hbusy)

/-- A read of a register by name answers what it holds, whether a command runs or not (R28, R142). -/
theorem step_rd {r : Reg} (hscript : s.script = .rd r :: rest) :
    step s = .next { s with
      script := rest, responses := s.responses ++ [.reg r.offset (readRegister s r.offset)] } :=
  step_regRead hscript r.offset_aligned

end Sys2Proof.Machine
end

section
/-! The settled statements about what can go wrong and what cannot. -/

namespace Sys2Proof.Machine

/-- Settles O8: `exec` answers exactly on an idle block with its range in order, and what it answers has completed. -/
theorem commandCompletesExactlyInRange : Obligations.CommandCompletesExactlyInRange := by
  intro i s
  refine ⟨⟨fun ⟨hidle, hrange⟩ => ?_, fun ⟨t, hexec⟩ => ?_⟩, fun t hexec => ?_⟩
  · exact ⟨_, (exec_next_iff ..).mpr ⟨hidle, hrange, rfl⟩⟩
  · obtain ⟨hidle, hrange, -⟩ := (exec_next_iff ..).mp hexec
    exact ⟨hidle, hrange⟩
  · obtain ⟨-, hphase, hbusy, hdone⟩ := completed_of_exec hexec
    exact ⟨hdone, hbusy, hphase⟩

/-- Settles O31: `BUSY` guards the writes and no read, and the invariant keeps `DONE` at 0 beside it. -/
theorem writesWhileBusyAreRefused : Obligations.WritesWhileBusyAreRefused :=
  fun _ _ hbusy hinv =>
    ⟨fun _ _ hr hscript => step_wr_busy hscript hr hbusy,
      fun hscript => ⟨step_rd hscript, hbusy, hinv.done_of_busy hbusy⟩, step_rd, step_rd⟩

end Sys2Proof.Machine
end

section
/-! When a host action is answered: exactly when it keeps the host's duties (R58, R132, R162, R165). Each kind of action
has one lemma; the wait and the block's own step rest on the sequencer being at a row of R109. -/

namespace Sys2Proof.Machine

section Actions

variable {s : State} {offset : Nat}

/-- A word written to `CMD` of an idle block is recorded as illegal or runs its command (R29, R141). -/
theorem writeCmd_answers {w : Word} (hidle : s.busy = false) (hrange : ∀ i, decode w = .ok i → RangeOk hw i s) :
    ∃ t, writeCmd w s = .next t := by
  cases hd : decode w with
  | error e => exact ⟨_, writeCmd_illegal hidle hd⟩
  | ok i =>
    obtain ⟨t, hexec, -⟩ := exec_completes hidle (hrange i hd)
    exact ⟨t, (writeCmd_of_decode hd s).trans hexec⟩

/-- An aligned register write is answered exactly when it is no guarded write to a running block and starts no command
out of its range (R28 to R32, R142). -/
theorem writeRegister_answers_iff (w : Word) (halign : offset % 4 = 0) :
    (∃ t, writeRegister offset w s = .next t) ↔
      (guardedOffset offset → s.busy = false) ∧
        (offset = Reg.cmd.offset → ∀ i, decode w = .ok i → RangeOk hw i s) := by
  constructor
  · rintro ⟨t, h⟩
    obtain ⟨-, hb, hcmd⟩ | ⟨rfl, hb, -⟩ | ⟨rfl, hb, -⟩ | ⟨hguard, -⟩ := writeRegister_next h
    · refine ⟨fun _ => hb, fun _ i hi => ?_⟩
      obtain ⟨e, he, -⟩ | ⟨j, hj, hrange, -⟩ := hcmd
      · cases hi.symm.trans he
      · cases hi.symm.trans hj
        exact hrange
    · exact ⟨fun _ => hb, nofun⟩
    · exact ⟨fun _ => hb, nofun⟩
    · exact ⟨fun hg => absurd hg hguard, fun ho => absurd (.inl ho) hguard⟩
  · rintro ⟨hidle, hrange⟩
    by_cases hguard : guardedOffset offset
    · have hb := hidle hguard
      obtain rfl | rfl | rfl := hguard
      · exact writeCmd_answers hb (hrange rfl)
      · exact ⟨_, writeRegister_bufAddr w hb⟩
      · exact ⟨_, writeRegister_bufLen w hb⟩
    · refine ⟨s, writeRegister_ignored w s ?_⟩
      simp only [guardedOffset, Reg.offset] at hguard
      omega

/-- A register write keeps the host's duties exactly when it is answered: the access is whole and aligned (R58), and
the register takes the word. -/
theorem hostAct_regWrite_answers_iff (width : AccessWidth) (w : Word) :
    (∃ t, hostAct hw (.regWrite offset width w) s = .next t) ↔ HostDuty hw s (.regWrite offset width w) := by
  rw [HostDuty, hostAct]
  by_cases hacc : accessWf offset width = true
  · obtain ⟨-, halign⟩ := (accessWf_iff ..).mp hacc
    rw [if_pos hacc, writeRegister_answers_iff w halign]
    exact (and_iff_right hacc).symm
  · rw [if_neg hacc]
    exact iff_of_false nofun fun hduty => hacc hduty.1

theorem hostAct_regRead_answers_iff (width : AccessWidth) :
    (∃ t, hostAct hw (.regRead offset width) s = .next t) ↔ HostDuty hw s (.regRead offset width) := by
  rw [HostDuty, hostAct]
  by_cases hacc : accessWf offset width = true
  · rw [if_pos hacc]
    exact iff_of_true ⟨_, rfl⟩ hacc
  · rw [if_neg hacc]
    exact iff_of_false nofun hacc

theorem hostPoke_answers_iff (cfg : Config) (a : Word) (bs : List Byte) :
    (∃ t, hostPoke cfg a bs s = .next t) ↔ DataAccessOk cfg s a.toNat bs.length := by
  refine ⟨fun ⟨t, h⟩ => ?_, fun h => ⟨_, hostPoke_allowed h⟩⟩
  obtain ⟨haccess, -⟩ := hostPoke_next h
  exact haccess

theorem hostPeek_answers_iff (cfg : Config) (a : Word) (n : Nat) :
    (∃ t, hostPeek cfg a n s = .next t) ↔ DataAccessOk cfg s a.toNat n := by
  refine ⟨fun ⟨t, h⟩ => ?_, fun h => ⟨_, hostPeek_allowed h⟩⟩
  obtain ⟨haccess, -⟩ := hostPeek_next h
  exact haccess

end Actions

namespace StateInv

variable {s : State}

/-- The sequencer is never without a row: an idle block waits, a running one makes progress (R109, R160). -/
theorem microStep_answers (h : StateInv s) : ∃ t, microStep hw s = .next t := by
  cases hb : s.busy with
  | false => exact ⟨s, by simp only [microStep, h.phase_idle hb]⟩
  | true =>
    obtain ⟨t, hmicro, -⟩ := h.microStep_progress hb
    exact ⟨t, hmicro⟩

/-- A poll of `WAIT` finds `DONE` set or lets the block move (R67). -/
theorem hostWait_answers (h : StateInv s) : ∃ t, hostWait hw s = .next t := by
  cases hdone : s.done with
  | true => exact ⟨_, hostWait_done hw hdone⟩
  | false =>
    rw [hostWait, if_neg (by simp [hdone])]
    exact (h.withHost h.memWf h.memInSpace (.wait :: s.script) _).microStep_answers

/-- The host's action is answered exactly when it keeps the host's duties. -/
theorem hostAct_answers_iff (h : StateInv s) (a : HostAction) :
    (∃ t, hostAct hw a s = .next t) ↔ HostDuty hw s a := by
  cases a with
  | regWrite offset width w => exact hostAct_regWrite_answers_iff width w
  | regRead offset width => exact hostAct_regRead_answers_iff width
  | poke addr bs => exact hostPoke_answers_iff hw addr bs
  | peek addr n => exact hostPeek_answers_iff hw addr n
  | wait => exact iff_of_true h.hostWait_answers trivial
  | reset => exact iff_of_true ⟨_, rfl⟩ trivial

end StateInv

/-- The duties for an action do not look at the script. -/
theorem hostDuty_withScript (cfg : Config) (s : State) (script : List HostAction) (a : HostAction) :
    HostDuty cfg { s with script := script } a ↔ HostDuty cfg s a := by
  cases a <;> rfl

end Sys2Proof.Machine
end

section
/-! The settled statements about reset and about the host's duties around a command. -/

namespace Sys2Proof.Machine

/-- Settles O2: a running command owns a chunk or its buffer, and the reset loses the bytes it owns. -/
theorem resetDuringCommandLosesItsRange : Obligations.ResetDuringCommandLosesItsRange := by
  intro s rest hscript hbusy hm
  have hmem : (State.resetBlock hw { s with script := rest }).mem =
      Memory.loseBytes s.resets s.mem s.latA.toNat (if scopeIsBuffer s.op then s.latL.toNat else 16) :=
    congrArg (Memory.loseBytes s.resets s.mem s.latA.toNat) (busyLength_running hbusy)
  refine ⟨_, step_cons hscript, rfl, rfl, rfl, rfl, rfl, ?_⟩
  rw [hmem]
  exact ⟨Memory.wf_loseBytes _ hm _ _, Memory.read_loseBytes _ hm _ _⟩

/-- Settles O41: the step is the host's next action, or a micro-step when none waits. -/
theorem stepRunsExactlyWhenTheHostKeepsItsDuties : Obligations.StepRunsExactlyWhenTheHostKeepsItsDuties := by
  refine fun s h => ⟨fun a rest hscript => ?_, fun hscript => ?_⟩
  · rw [step_cons hscript, (h.withScript rest).hostAct_answers_iff a]
    exact (hostDuty_withScript hw s rest a).symm
  · rw [step_nil hscript]
    exact h.microStep_answers

end Sys2Proof.Machine
end
